-- ==== Sys2Proof/Word.lean ====
section
/-! DEFINITION. The value types of the block: Bit, BitString, Text (spec/00_scope.md R10, R11). -/

namespace Sys2Proof

/-- A Bit is 0 (`false`) or 1 (`true`) (R10). -/
abbrev Bit := Bool

/-- A BitString is a finite list of bits, position 0 first; its length is part of its identity (R10, R13). -/
abbrev BitString := List Bit

/-- A Text is a finite sequence of character codes, element 0 first. A Code is an unsigned number, never a glyph; a
field of a frame bounds it by `2^CP_W` (R11). -/
abbrev Text := List Nat

end Sys2Proof
end

