-- ==== Sys2Proof/Config.lean ====
section
/-! DEFINITION. The parameters of an implementation and the fixed constants (spec/00_scope.md R8, R9). They are
configuration: no command reads them as operands and no step changes them (spec/10_state.md R23, R27). -/

namespace Sys2Proof

/-- The four parameters that R8 leaves open; a claim about every `Config` with `wf` holds of every implementation. -/
structure Config where
  /-- `LEN_W`: the width in bits of a length or count field. -/
  lenW : Nat
  /-- `CP_W`: the width in bits of one Code of a Text field. -/
  cpW : Nat
  /-- `MAX_KEY_BITS`: the upper bound of a valid key length, used by `VKLEN` alone. -/
  maxKeyBits : Nat
  /-- `NPORTS`: the number of independent ports. -/
  nPorts : Nat
  deriving DecidableEq, Repr

/-- The default of every parameter in the table of R8. -/
def Config.default : Config := { lenW := 16, cpW := 16, maxKeyBits := 128, nPorts := 1 }

/-- `CHAR_BITS`, fixed (R8). -/
def charBits : Nat := 8
/-- `NUM_W`, fixed (R8). -/
def numW : Nat := 32
/-- `ZERO_CODE`, the code of the character "0" (R8). -/
def zeroCode : Nat := 0x30
/-- `ONE_CODE`, the code of the character "1" (R8). -/
def oneCode : Nat := 0x31

/-- `CAP_BITS`: the greatest length a BitString field carries and the greatest count a Text field carries (R8). -/
def Config.capBits (c : Config) : Nat := 2 ^ c.lenW - 1

/-- `CAP_ENC`: the greatest character count `ENCT` and `ENCR` accept (R8). -/
def Config.capEnc (c : Config) : Nat := c.capBits / 8

/-- The ranges of R8 and the constraints of R9 between the parameters. -/
def Config.wf (c : Config) : Bool :=
  decide (1 ≤ c.lenW) && decide (c.lenW ≤ 32) && decide (8 ≤ c.cpW) && decide (c.cpW ≤ 32) &&
  decide (1 ≤ c.maxKeyBits) && decide (c.maxKeyBits ≤ c.capBits) && decide (1 ≤ c.nPorts)

end Sys2Proof
end

