-- ==== Sys2Proof/Machine/Bits.lean ====
section
/-! DEFINITION. The conversion primitives between numbers and BitStrings (spec/00_scope.md R13, R14). -/

namespace Sys2Proof

/-- `bits_N(v)`: the `N`-bit unsigned representation of `v`, most significant bit first; position `p` holds the
bit of weight `2^(N-1-p)` (R14). The spec uses it for `v < 2^N` only. -/
def bitsOf : (n v : Nat) → BitString
  | 0, _ => []
  | n + 1, v => v.testBit n :: bitsOf n v

/-- `uint(b)`: the sum over the positions `p` of `b[p] * 2^(len(b)-1-p)` (R14). -/
def uint : BitString → Nat
  | [] => 0
  | x :: b => x.toNat * 2 ^ b.length + uint b

/-- The first `n` consecutive groups of `w` bits, in order, each as an unsigned number (R67 for a `TEXT` field,
R92 and R93 for the 8-bit groups of `decodeText`). -/
def groupValues (w : Nat) : (n : Nat) → BitString → List Nat
  | 0, _ => []
  | n + 1, b => uint (b.take w) :: groupValues w n (b.drop w)

end Sys2Proof
end

