-- ==== Sys2Proof/Machine/Operands.lean ====
section
/-! DEFINITION. The operand fields of a frame, `NUM`, `BITS` and `TEXT`: how each is read from the bits received so
far and how each is written (spec/30_encoding.md R62, R63, R67; bit order: spec/20_memory.md R44). -/

namespace Sys2Proof

/-- The answer of reading one field: too few bits yet (`need` more would let the reading go on), or the value and
the bits after the field. -/
inductive Got (α : Type) where
  | short (need : Nat)
  | got (v : α) (rest : BitString)
  deriving DecidableEq, Repr

/-- The value converted, the rest kept. -/
def Got.map {α β : Type} (f : α → β) : Got α → Got β
  | .short k => .short k
  | .got v r => .got (f v) r

/-- Read a second field after the first. -/
def Got.andThen {α β : Type} (g : Got α) (k : α → BitString → Got β) : Got β :=
  match g with
  | .short n => .short n
  | .got v r => k v r

/-- The next `n` bits: the test `len(rx) < pos + n` of R67, then the slice. -/
def takeBits (n : Nat) (b : BitString) : Got BitString :=
  if b.length < n then .short (n - b.length) else .got (b.take n) (b.drop n)

/-- An unsigned number of `w` bits, taken whole, neither extended nor scaled (R63). -/
def readNumber (w : Nat) (b : BitString) : Got Nat := (takeBits w b).map uint

/-- A `NUM` field (R62). -/
def readNum (b : BitString) : Got Nat := readNumber numW b

/-- The `LEN` subfield of a `BITS` field or the `CNT` subfield of a `TEXT` field (R62). -/
def readLen (c : Config) (b : BitString) : Got Nat := readNumber c.lenW b

/-- A `BITS` field: its `LEN`, then exactly that many payload bits (R62). -/
def readBits (c : Config) (b : BitString) : Got BitString :=
  (readLen c b).andThen takeBits

/-- The `n` Codes of a `TEXT` field after its `CNT`, each taken whole as a `CP_W`-bit number (R63). -/
def readCodes (c : Config) (n : Nat) (b : BitString) : Got Text :=
  (takeBits (n * c.cpW) b).map (groupValues c.cpW n)

/-- A `TEXT` field: its `CNT`, then that many Codes (R62). -/
def readText (c : Config) (b : BitString) : Got Text :=
  (readLen c b).andThen (readCodes c)

/-- `bits_NUM_W(v)` (R62). -/
def writeNum (n : Nat) : BitString := bitsOf numW n

/-- `bits_LEN_W(L)` and then the `L` bits, position 0 first (R62). -/
def writeBits (c : Config) (b : BitString) : BitString := bitsOf c.lenW b.length ++ b

/-- `bits_LEN_W(n)` and then the `n` Codes, element 0 first, each zero-extended to `CP_W` bits (R62, R66). -/
def writeText (c : Config) (t : Text) : BitString := bitsOf c.lenW t.length ++ t.flatMap (bitsOf c.cpW)

end Sys2Proof
end

