-- ==== Sys2Proof/Syntax.lean ====
section
/-! DEFINITION. The ten commands with their operands (spec/30_encoding.md R61, R64). -/

namespace Sys2Proof

/-- A command: one constructor per row of the opcode table, with the operands of its format in field order.
In a format with a key the key is the first operand (R61). -/
inductive Instr where
  /-- `ENCT T`: text to bits. -/
  | enct (t : Text)
  /-- `DECT A`: bits to text. -/
  | dect (a : BitString)
  /-- `PARS T`: bit text to BitString. -/
  | pars (t : Text)
  /-- `REND A`: BitString to bit text. -/
  | rend (a : BitString)
  /-- `XORV A, B`: key, data. -/
  | xorv (a b : BitString)
  /-- `ENCR A, T`: key, plaintext. -/
  | encr (a : BitString) (t : Text)
  /-- `DECR A, B`: key, ciphertext. -/
  | decr (a b : BitString)
  /-- `VEQL N, M`: key length, data length. -/
  | veql (n m : Nat)
  /-- `VMUL8 N`. -/
  | vmul8 (n : Nat)
  /-- `VKLEN N`. -/
  | vklen (n : Nat)
  deriving DecidableEq, Repr

end Sys2Proof
end

