-- ==== Sys2Proof/WellFormed.lean ====
section
/-! DEFINITION. Which commands a request frame can carry (spec/30_encoding.md R62, R63, R70). -/

namespace Sys2Proof

/-- A BitString fits a `BITS` field: its length is at most `CAP_BITS` (R62). -/
def bitsFit (c : Config) (b : BitString) : Bool := decide (b.length ≤ c.capBits)

/-- A Text fits a `TEXT` field: its count is at most `CAP_BITS` and every Code is below `2^CP_W` (R62, R11). -/
def textFits (c : Config) (t : Text) : Bool :=
  decide (t.length ≤ c.capBits) && t.all fun x => decide (x < 2 ^ c.cpW)

/-- A number fits a `NUM` field: it is below `2^32` (R62). -/
def numFits (n : Nat) : Bool := decide (n < 2 ^ numW)

/-- The result of encoding `n` characters fits a `BITS` field (R70, second illegality). -/
def encodable (c : Config) (n : Nat) : Bool := decide (8 * n ≤ c.capBits)

/-- Every operand fits its field, so that the command can be written as a frame at all (R62, R63). -/
def Instr.fits (c : Config) : Instr → Bool
  | .enct t => textFits c t
  | .dect a => bitsFit c a
  | .pars t => textFits c t
  | .rend a => bitsFit c a
  | .xorv a b => bitsFit c a && bitsFit c b
  | .encr a t => bitsFit c a && textFits c t
  | .decr a b => bitsFit c a && bitsFit c b
  | .veql n m => numFits n && numFits m
  | .vmul8 n => numFits n
  | .vklen n => numFits n

/-- The command is not one that R70 makes illegal: `ENCT` and `ENCR` may not hold a text too long to encode. -/
def Instr.legal (c : Config) : Instr → Bool
  | .enct t => encodable c t.length
  | .dect _ => true
  | .pars _ => true
  | .rend _ => true
  | .xorv _ _ => true
  | .encr _ t => encodable c t.length
  | .decr _ _ => true
  | .veql _ _ => true
  | .vmul8 _ => true
  | .vklen _ => true

/-- A command some legal request frame carries. -/
def Instr.wellFormed (c : Config) (i : Instr) : Bool := i.fits c && i.legal c

end Sys2Proof
end

