-- ==== Sys2Proof/Decode.lean ====
section
/-! DEFINITION. The opcode map, the frame parser and, after it, the encoder (spec/30_encoding.md R60 to R72); at the
end the reading of a word of the opcode table. -/

namespace Sys2Proof

/-- The ten opcodes by name (R64). -/
inductive Op where
  | enct | dect | pars | rend | xorv | encr | decr | veql | vmul8 | vklen
  deriving DecidableEq, Repr

/-- The value of the `OPC` field of each command (R64). -/
def Op.code : Op → Nat
  | .enct => 0x01
  | .dect => 0x02
  | .pars => 0x03
  | .rend => 0x04
  | .xorv => 0x08
  | .encr => 0x09
  | .decr => 0x0A
  | .veql => 0x10
  | .vmul8 => 0x11
  | .vklen => 0x12

/-- The command an `OPC` value selects; every value outside the table of R64 is undefined (R70). -/
def Op.ofCode : Nat → Option Op
  | 0x01 => some .enct
  | 0x02 => some .dect
  | 0x03 => some .pars
  | 0x04 => some .rend
  | 0x08 => some .xorv
  | 0x09 => some .encr
  | 0x0A => some .decr
  | 0x10 => some .veql
  | 0x11 => some .vmul8
  | 0x12 => some .vklen
  | _ => none

/-- The opcode of a command. -/
def Instr.op : Instr → Op
  | .enct _ => .enct
  | .dect _ => .dect
  | .pars _ => .pars
  | .rend _ => .rend
  | .xorv _ _ => .xorv
  | .encr _ _ => .encr
  | .decr _ _ => .decr
  | .veql _ _ => .veql
  | .vmul8 _ => .vmul8
  | .vklen _ => .vklen

/-- The reasons an `IllegalCommand` carries in `E0` (spec/60_exceptions.md R171). -/
def reasonUndefinedOpcode : Nat := 1
def reasonTextTooLong : Nat := 2

/-- The answer of scanning the front of a bit stream for one request frame: `parse` of R67 with two things added
for the model's use, how many more bits the scan needs before it can go on, and the bits after the frame. -/
inductive Scan where
  | incomplete (need : Nat)
  | complete (i : Instr) (rest : BitString)
  | illegal (reason value : Nat) (rest : BitString)
  deriving DecidableEq, Repr

/-- Go on with a field's value, or answer that the frame is incomplete (R67). -/
def Got.scan {α : Type} (g : Got α) (k : α → BitString → Scan) : Scan :=
  match g with
  | .short n => .incomplete n
  | .got v r => k v r

/-- The `TEXT` field of `ENCT` and `ENCR`: a count `n` with `8*n > CAP_BITS` is illegal as soon as the count is
known, before any Code is taken (R67, R70). -/
def scanEncodableText (c : Config) (b : BitString) (k : Text → BitString → Scan) : Scan :=
  (readLen c b).scan fun n r =>
    if 8 * n > c.capBits then .illegal reasonTextTooLong n r else (readCodes c n r).scan k

/-- The operand fields of an opcode's format, in the order of R61. -/
def scanOperands (c : Config) : Op → BitString → Scan
  | .enct, b => scanEncodableText c b fun t r => .complete (.enct t) r
  | .dect, b => (readBits c b).scan fun a r => .complete (.dect a) r
  | .pars, b => (readText c b).scan fun t r => .complete (.pars t) r
  | .rend, b => (readBits c b).scan fun a r => .complete (.rend a) r
  | .xorv, b => (readBits c b).scan fun a r => (readBits c r).scan fun d r' => .complete (.xorv a d) r'
  | .encr, b => (readBits c b).scan fun a r => scanEncodableText c r fun t r' => .complete (.encr a t) r'
  | .decr, b => (readBits c b).scan fun a r => (readBits c r).scan fun d r' => .complete (.decr a d) r'
  | .veql, b => (readNum b).scan fun n r => (readNum r).scan fun m r' => .complete (.veql n m) r'
  | .vmul8, b => (readNum b).scan fun n r => .complete (.vmul8 n) r
  | .vklen, b => (readNum b).scan fun n r => .complete (.vklen n) r

/-- The frame at the front of a bit stream: the 8-bit opcode, then its operand fields (R60, R67). -/
def scan (c : Config) (b : BitString) : Scan :=
  (readNumber 8 b).scan fun opc r =>
    match Op.ofCode opc with
    | none => .illegal reasonUndefinedOpcode opc r
    | some op => scanOperands c op r

/-- The three answers of `parse` (R67). -/
inductive Parsed where
  | incomplete
  | complete (i : Instr)
  | illegal (reason value : Nat)
  deriving DecidableEq, Repr

/-- The frame parser of R67. -/
def parse (c : Config) (rx : BitString) : Parsed :=
  match scan c rx with
  | .incomplete _ => .incomplete
  | .complete i _ => .complete i
  | .illegal r v _ => .illegal r v

/-- The command at the front of a bit stream and the bits after its frame; none for an incomplete or an illegal
frame. -/
def decode (c : Config) (b : BitString) : Option (Instr × BitString) :=
  match scan c b with
  | .incomplete _ => none
  | .complete i rest => some (i, rest)
  | .illegal _ _ _ => none

/-- The operand fields of a command, in the order of its format (R61). -/
def encodeOperands (c : Config) : Instr → BitString
  | .enct t => writeText c t
  | .dect a => writeBits c a
  | .pars t => writeText c t
  | .rend a => writeBits c a
  | .xorv a b => writeBits c a ++ writeBits c b
  | .encr a t => writeBits c a ++ writeText c t
  | .decr a b => writeBits c a ++ writeBits c b
  | .veql n m => writeNum n ++ writeNum m
  | .vmul8 n => writeNum n
  | .vklen n => writeNum n

/-- The request frame of a command: `bits_8(opcode)`, then the operand fields with no gap (R60, R61). -/
def encode (c : Config) (i : Instr) : BitString := bitsOf 8 i.op.code ++ encodeOperands c i

/-- The length in bits of a command's request frame, by the table of R61. -/
def frameLength (c : Config) : Instr → Nat
  | .enct t => 8 + c.lenW + t.length * c.cpW
  | .dect a => 8 + c.lenW + a.length
  | .pars t => 8 + c.lenW + t.length * c.cpW
  | .rend a => 8 + c.lenW + a.length
  | .xorv a b => 8 + 2 * c.lenW + a.length + b.length
  | .encr a t => 8 + 2 * c.lenW + a.length + t.length * c.cpW
  | .decr a b => 8 + 2 * c.lenW + a.length + b.length
  | .veql _ _ => 72
  | .vmul8 _ => 40
  | .vklen _ => 40

/-- The bits of an opcode-table word in the order they go over the stream: the table's bits 7..0 are the first 8
bits of the frame and so on by bytes, each byte most significant bit first (R44; log entry 8). -/
def tableBits (nbits w : Nat) : BitString :=
  (List.range ((nbits + 7) / 8)).flatMap fun k => bitsOf 8 (w >>> (8 * k))

/-- Zero bits supplied as long as the frame at the front is incomplete; then that frame alone. Each round takes the
scan past one field or subfield, and no format has more than five. -/
def fillFrame (c : Config) : (rounds : Nat) → BitString → BitString
  | 0, b => b
  | k + 1, b =>
    match scan c b with
    | .incomplete need => fillFrame c k (b ++ List.replicate need false)
    | .complete _ rest => b.take (b.length - rest.length)
    | .illegal _ _ rest => b.take (b.length - rest.length)

/-- The one frame an opcode-table word stands for, every bit above `nbits` being 0. -/
def tableFrame (c : Config) (nbits w : Nat) : BitString := fillFrame c 8 (tableBits nbits w)

/-- The command the decoder reads from an opcode-table word, at the default parameters. -/
def decodeTableWord (nbits w : Nat) : Option Instr :=
  (decode Config.default (tableFrame Config.default nbits w)).map Prod.fst

end Sys2Proof
end

