-- ==== Sys2Proof/Machine/Flags.lean ====
section
/-! DEFINITION. The outcome of a command. The block has no flags: what a command answers is a response, whose status
field stands in their place (spec/10_state.md R22). Typed failures, their status codes, and the four response
formats with their serialiser (spec/60_exceptions.md R170 to R173; spec/30_encoding.md R65, R66). -/

namespace Sys2Proof.Machine

/-- The kinds of failure (R171). -/
inductive Kind where
  | invalidLength
  | lengthMismatch
  | malformedLength
  | encoding
  | bitChar
  | illegalCommand
  deriving DecidableEq, Repr

/-- `code(kind)`: the value of the `STA` field of the `ERR` frame (R171). -/
def Kind.code : Kind → Nat
  | .invalidLength => 0x01
  | .lengthMismatch => 0x02
  | .malformedLength => 0x03
  | .encoding => 0x04
  | .bitChar => 0x05
  | .illegalCommand => 0x7F

/-- The status of a success (R171). -/
def statusOk : Nat := 0x00

/-- A typed failure: a kind and two unsigned numbers, and no value (R170). -/
structure Failure where
  kind : Kind
  e0 : Nat
  e1 : Nat
  deriving DecidableEq, Repr

/-- What a function of the block gives: a value, or the failure it raised (spec/00_scope.md R15). -/
abbrev Result (α : Type) := Except Failure α

/-- `raise kind(e0, e1)` (R15). -/
def raise {α : Type} (kind : Kind) (e0 e1 : Nat) : Result α := .error ⟨kind, e0, e1⟩

/-- `x <- r; k x`: a caller that names no handler fails with the same failure (R15). -/
def Result.andThen {α β : Type} (r : Result α) (k : α → Result β) : Result β :=
  match r with
  | .error f => .error f
  | .ok v => k v

/-- A response: OK with a BitString, with a Text or with nothing, or one failure and no result (R65, R66). -/
inductive Response where
  | okBits (r : BitString)
  | okText (u : Text)
  | okNone
  | error (f : Failure)
  deriving DecidableEq, Repr

/-- `respond OK(R)` for a BitString; a failure that reaches the top of the rule is the `ERR` response (R15). -/
def Response.ofBits : Result BitString → Response
  | .ok r => .okBits r
  | .error f => .error f

/-- `respond OK(U)` for a Text (R15). -/
def Response.ofText : Result Text → Response
  | .ok u => .okText u
  | .error f => .error f

/-- `respond OK()` (R15). -/
def Response.ofUnit : Result Unit → Response
  | .ok _ => .okNone
  | .error f => .error f

/-- The value of the `STA` field of a response. -/
def Response.status : Response → Nat
  | .okBits _ => statusOk
  | .okText _ => statusOk
  | .okNone => statusOk
  | .error f => f.kind.code

/-- The serialiser `encode` of R66. -/
def encodeResponse (c : Config) : Response → BitString
  | .okBits r => bitsOf 8 statusOk ++ writeBits c r
  | .okText u => bitsOf 8 statusOk ++ writeText c u
  | .okNone => bitsOf 8 statusOk
  | .error f => bitsOf 8 f.kind.code ++ writeNum f.e0 ++ writeNum f.e1

end Sys2Proof.Machine
end

