-- ==== Sys2Proof/Machine/State.lean ====
section
/-! DEFINITION. The state of the block, plain data, and its value after reset (spec/10_state.md R24, R31). The spec
gives each port `mode`, `rx` and `tx` and nothing else; the other fields of State are the model's own: the
configuration, and the host's side of the streams (log entries 1, 2, 5, 6). -/

namespace Sys2Proof.Machine

/-- Whether a port accepts request bits (R24). -/
inductive Mode where
  | ready
  | halted
  deriving DecidableEq, Repr

/-- The framing state of one port, the whole of it (R24). -/
structure Port where
  /-- `mode[i]`. -/
  mode : Mode
  /-- `rx[i]`: the bits of the request frame received so far and not yet complete. -/
  rx : BitString
  /-- `tx[i]`: the bits of the response frame not yet taken by the host. -/
  tx : BitString
  deriving DecidableEq, Repr

/-- A port after reset: `READY`, `rx` and `tx` empty (R31). -/
def Port.idle : Port := { mode := .ready, rx := [], tx := [] }

/-- What the host can do to the block: the three steps of R32. -/
inductive HostMove where
  /-- `push(i, bit)`: give port `i` one request bit. -/
  | push (port : Nat) (bit : Bit)
  /-- `pull(i)`: take one response bit from port `i`. -/
  | pull (port : Nat)
  /-- The reset input of the whole block (spec/70_reset_and_hazards.md R200). -/
  | reset
  deriving DecidableEq, Repr

/-- A response bit the host has pulled, with the port it came from. -/
structure TakenBit where
  port : Nat
  bit : Bit
  deriving DecidableEq, Repr

/-- The machine: the ports of the block, its configuration, and the host beside it. -/
structure State where
  /-- The parameters (R8 of 00_scope.md): configuration, changed by no step. The model's own field. -/
  cfg : Config
  /-- The ports `0 .. NPORTS-1`. -/
  ports : List Port
  /-- The port whose request the step in hand answers: set when a push is accepted, read by the command that
  the push completes. The model's own field (log entry 6). -/
  cur : Nat
  /-- What the host does next, oldest first. The model's own field: the host's schedule (R27, log entry 2). -/
  moves : List HostMove
  /-- The response bits the host has taken, oldest first. The model's own field: they belong to the host (R27). -/
  taken : List TakenBit
  deriving DecidableEq, Repr

/-- The machine after reset in the configuration `c`, with a host that has done nothing and plans nothing. -/
def State.resetOf (c : Config) : State :=
  { cfg := c, ports := List.replicate c.nPorts Port.idle, cur := 0, moves := [], taken := [] }

/-- The machine right after reset at the default parameters (R31; 00_scope.md R8). -/
def State.reset : State := State.resetOf Config.default

/-- Why the machine stops with a fault. The block's typed failures are answers and never faults (R176). -/
inductive Fault where
  /-- A move, or a response, on a port number that is not one of `0 .. NPORTS-1` (60_exceptions.md R184: no such
  port exists). Raised by `hostPush`, `hostPull` and `State.updateCur`. Safe: the machine stops. -/
  | noSuchPort
  deriving DecidableEq, Repr

/-- Why a step has no transition. -/
inductive Refusal where
  /-- An instruction without a meaning, by its mnemonic; raised only by an arm of `exec`, and no arm of this model
  raises it. Safe. -/
  | notModelled (mnemonic : String)
  /-- A push to a port that is `HALTED` or whose response has not been taken: not a step (R32, U13). Raised by
  `hostPush`. Safe: the spec gives this moment no transition. -/
  | pushNotEnabled
  /-- A pull from an empty `tx`: not a step (R32, U13). Raised by `hostPull`. Safe: as above. -/
  | pullNotEnabled
  deriving DecidableEq, Repr

/-- What a step answers. -/
abbrev StepResult := Host.Outcome State Fault Refusal

end Sys2Proof.Machine
end

