-- ==== Sys2Proof/Machine/Ops.lean ====
section
/-! DEFINITION. The named operations on the state: reading and writing a port, placing a response, the entry to the
halt on an illegal frame and, beside it, reset, which is the one way back (spec/10_state.md R32;
spec/60_exceptions.md R175, R179; spec/70_reset_and_hazards.md R200). -/

namespace Sys2Proof.Machine

/-- Port `k`, if it exists. -/
def State.port? (s : State) (k : Nat) : Option Port := s.ports[k]?

/-- Port `k` replaced; every other port left alone (R33). -/
def State.setPort (s : State) (k : Nat) (p : Port) : State := { s with ports := s.ports.set k p }

/-- The port whose request is being answered from now on. -/
def State.select (s : State) (k : Nat) : State := { s with cur := k }

/-- The host's plan replaced. -/
def State.withMoves (s : State) (ms : List HostMove) : State := { s with moves := ms }

/-- One more bit in the host's hands. -/
def State.record (s : State) (k : Nat) (b : Bit) : State := { s with taken := s.taken ++ [⟨k, b⟩] }

/-- `rx` emptied and a frame placed in `tx` (R32, both answering cases of `push`). -/
def Port.placed (p : Port) (frame : BitString) : Port := { p with rx := [], tx := frame }

/-- `mode` set to `HALTED` (R179). -/
def Port.halt (p : Port) : Port := { p with mode := .halted }

/-- Change the port whose request is being answered. -/
def State.updateCur (s : State) (f : Port → Port) : StepResult :=
  match s.port? s.cur with
  | none => .fault .noSuchPort
  | some p => .next (s.setPort s.cur (f p))

/-- The `Complete` case of `push` once the command's response is known: `tx` holds the response frame, `rx` is
empty, and nothing else changes, for a result and for a typed failure alike (R32, R175). -/
def State.respond (r : Response) (s : State) : StepResult :=
  s.updateCur fun p => p.placed (encodeResponse s.cfg r)

/-- Taking the one exception the block has, `IllegalCommand`: `tx` receives the `ERR` frame with the reason and the
value, `rx` is emptied and the port halts; no other port is affected (R179). -/
def State.takeIllegal (reason value : Nat) (s : State) : StepResult :=
  s.updateCur fun p => (p.placed (encodeResponse s.cfg (.error ⟨.illegalCommand, reason, value⟩))).halt

/-- Reset, the only return from the halt: every port at once to `READY` with `rx` and `tx` empty, whatever was in
flight (R200, R201). The parameters and what the host holds are untouched. -/
def State.resetBlock (s : State) : State := { s with ports := s.ports.map fun _ => Port.idle }

end Sys2Proof.Machine
end

