-- ==== Sys2Proof/Machine/Validator.lean ====
section
/-! DEFINITION. The length validator: its three checks and the commands `VEQL`, `VMUL8`, `VKLEN`
(spec/41_length_validator.md R120 to R129). -/

namespace Sys2Proof.Machine

/-- `V_EQ(n, m)`: the key's length against the data's, reported in that order (R120). -/
def vEq (n m : Nat) : Result Unit := if n ≠ m then raise .lengthMismatch n m else .ok ()

/-- `V_MUL8(n)`: a length that is a multiple of 8 (R121). -/
def vMul8 (n : Nat) : Result Unit := if n % 8 ≠ 0 then raise .malformedLength n 0 else .ok ()

/-- `V_KEYLEN(n)`: a key length within `1 .. MAX_KEY_BITS`, both bounds included (R122). -/
def vKeyLen (c : Config) (n : Nat) : Result Unit :=
  if n < 1 ∨ n > c.maxKeyBits then raise .invalidLength n c.maxKeyBits else .ok ()

/-- What `VEQL N, M` responds (R125). -/
def answerVeql (n m : Nat) : Response := .ofUnit (vEq n m)
/-- What `VMUL8 N` responds (R126). -/
def answerVmul8 (n : Nat) : Response := .ofUnit (vMul8 n)
/-- What `VKLEN N` responds (R127). -/
def answerVklen (c : Config) (n : Nat) : Response := .ofUnit (vKeyLen c n)

/-- `VEQL N, M` (R125). -/
def execVeql (n m : Nat) (s : State) : StepResult := s.respond (answerVeql n m)
/-- `VMUL8 N` (R126). -/
def execVmul8 (n : Nat) (s : State) : StepResult := s.respond (answerVmul8 n)
/-- `VKLEN N` (R127). -/
def execVklen (n : Nat) (s : State) : StepResult := s.respond (answerVklen s.cfg n)

end Sys2Proof.Machine
end

