-- ==== Sys2Proof/Machine/Codec.lean ====
section
/-! DEFINITION. The fixed-width bit codec: its four functions and the commands `ENCT`, `DECT`, `PARS`, `REND`
(spec/40_codec.md R90 to R103). The functions are total over operands of every length. -/

namespace Sys2Proof.Machine

/-- The lowest index, counted from `j`, of an element that `bad` holds of, with that element. -/
def firstBadFrom (bad : Nat → Bool) : (j : Nat) → Text → Option (Nat × Nat)
  | _, [] => none
  | j, x :: t => if bad x then some (j, x) else firstBadFrom bad (j + 1) t

/-- The lowest index at which `bad` holds, and the Code there (the scans of R91 and R94). -/
def firstBad (bad : Nat → Bool) (t : Text) : Option (Nat × Nat) := firstBadFrom bad 0 t

/-- A Code that 8 bits cannot represent (R11). -/
def notSingleByte (x : Nat) : Bool := decide (x > 255)

/-- A Code that is neither "0" nor "1" (R94). -/
def notBitChar (x : Nat) : Bool := x != zeroCode && x != oneCode

/-- `encodeText(t)`: the whole text is checked first; then each Code becomes its 8-bit group, in order (R91). -/
def encodeText (t : Text) : Result BitString :=
  match firstBad notSingleByte t with
  | some (j, x) => raise .encoding j x
  | none => .ok (t.flatMap (bitsOf charBits))

/-- `decodeText(b)`: a length that is a multiple of 8, then the value of each 8-bit group in order (R92, R93). -/
def decodeText (b : BitString) : Result Text :=
  Result.andThen (vMul8 b.length) fun _ => .ok (groupValues charBits (b.length / charBits) b)

/-- `parseBitString(t)`: the whole text is checked first; then one bit per character, none skipped (R94). -/
def parseBitString (t : Text) : Result BitString :=
  match firstBad notBitChar t with
  | some (p, x) => raise .bitChar p x
  | none => .ok (t.map fun x => x == oneCode)

/-- `renderBitString(b)`: one character per bit, `ZERO_CODE + b[p]`; never fails (R95). -/
def renderBitString (b : BitString) : Text := b.map fun x => zeroCode + x.toNat

/-- What `ENCT T` responds (R100). -/
def answerEnct (t : Text) : Response := .ofBits (encodeText t)
/-- What `DECT A` responds (R101). -/
def answerDect (a : BitString) : Response := .ofText (decodeText a)
/-- What `PARS T` responds (R102). -/
def answerPars (t : Text) : Response := .ofBits (parseBitString t)
/-- What `REND A` responds (R103). -/
def answerRend (a : BitString) : Response := .okText (renderBitString a)

/-- `ENCT T` (R100). -/
def execEnct (t : Text) (s : State) : StepResult := s.respond (answerEnct t)
/-- `DECT A` (R101). -/
def execDect (a : BitString) (s : State) : StepResult := s.respond (answerDect a)
/-- `PARS T` (R102). -/
def execPars (t : Text) (s : State) : StepResult := s.respond (answerPars t)
/-- `REND A` (R103). -/
def execRend (a : BitString) (s : State) : StepResult := s.respond (answerRend a)

end Sys2Proof.Machine
end

