-- ==== Sys2Proof/Machine/XorEngine.lean ====
section
/-! DEFINITION. The XOR bit-vector engine: `apply`, `encrypt`, `decrypt` and the commands `XORV`, `ENCR`, `DECR`
(spec/42_xor_engine.md R140 to R153). -/

namespace Sys2Proof.Machine

/-- `x xor y` on two Bits: 1 exactly when they differ (R140). -/
def xorBit : Bit → Bit → Bit
  | false, false => false
  | false, true => true
  | true, false => true
  | true, true => false

/-- `apply(key, data)`: the lengths are checked first and alone decide the failure; then position by position, no
lane touching another (R141, R153). -/
def apply (key data : BitString) : Result BitString :=
  Result.andThen (vEq key.length data.length) fun _ => .ok (List.zipWith xorBit key data)

/-- `encrypt(key, plaintext)`: the text is encoded before `apply` is entered (R146). -/
def encrypt (key : BitString) (plaintext : Text) : Result BitString :=
  Result.andThen (encodeText plaintext) fun pbits => apply key pbits

/-- `decrypt(key, ciphertext)`: `apply` first, then `decodeText` (R147). -/
def decrypt (key ciphertext : BitString) : Result Text :=
  Result.andThen (apply key ciphertext) decodeText

/-- What `XORV A, B` responds (R150). -/
def answerXorv (a b : BitString) : Response := .ofBits (apply a b)
/-- What `ENCR A, T` responds (R151). -/
def answerEncr (a : BitString) (t : Text) : Response := .ofBits (encrypt a t)
/-- What `DECR A, B` responds (R152). -/
def answerDecr (a b : BitString) : Response := .ofText (decrypt a b)

/-- `XORV A, B` (R150). -/
def execXorv (a b : BitString) (s : State) : StepResult := s.respond (answerXorv a b)
/-- `ENCR A, T` (R151). -/
def execEncr (a : BitString) (t : Text) (s : State) : StepResult := s.respond (answerEncr a t)
/-- `DECR A, B` (R152). -/
def execDecr (a b : BitString) (s : State) : StepResult := s.respond (answerDecr a b)

end Sys2Proof.Machine
end

