-- ==== Sys2Proof/Machine/Dispatch.lean ====
section
/-! DEFINITION. One arm per command: the command's execution on the port that has just completed its request. -/

namespace Sys2Proof.Machine

def exec (i : Instr) (s : State) : Host.Outcome State Fault Refusal :=
  match i with
  -- the codec (spec/40_codec.md)
  | .enct t => Sys2Proof.Machine.execEnct t s
  | .dect a => Sys2Proof.Machine.execDect a s
  | .pars t => Sys2Proof.Machine.execPars t s
  | .rend a => Sys2Proof.Machine.execRend a s
  -- the XOR engine (spec/42_xor_engine.md)
  | .xorv a b => Sys2Proof.Machine.execXorv a b s
  | .encr a t => Sys2Proof.Machine.execEncr a t s
  | .decr a b => Sys2Proof.Machine.execDecr a b s
  -- the length validator (spec/41_length_validator.md)
  | .veql n m => Sys2Proof.Machine.execVeql n m s
  | .vmul8 n => Sys2Proof.Machine.execVmul8 n s
  | .vklen n => Sys2Proof.Machine.execVklen n s

end Sys2Proof.Machine
end

