-- ==== Sys2Proof/Machine/Ports.lean ====
section
/-! DEFINITION. The steps of a port: `push`, `pull` and reset (spec/10_state.md R32), and the placing of a frame
where the next step takes it. -/

namespace Sys2Proof.Machine

/-- The bit is in `rx` and the port is selected, before the frame is parsed (R32). -/
def State.acceptBit (s : State) (k : Nat) (p : Port) (b : Bit) : State :=
  (s.setPort k { p with rx := p.rx ++ [b] }).select k

/-- What an accepted bit brings about: nothing more, a command, or the halt (R32). -/
def State.afterPush (s : State) (rx : BitString) : StepResult :=
  match parse s.cfg rx with
  | .incomplete => .next s
  | .complete i => exec i s
  | .illegal reason value => s.takeIllegal reason value

/-- `push(k, b)`, enabled when the port is `READY` and its `tx` is empty; otherwise no step (R32, U13). -/
def hostPush (k : Nat) (b : Bit) (s : State) : StepResult :=
  match s.port? k with
  | none => .fault .noSuchPort
  | some p =>
    match p.mode, p.tx with
    | .ready, [] => (s.acceptBit k p b).afterPush (p.rx ++ [b])
    | .ready, _ :: _ => .refused .pushNotEnabled
    | .halted, _ => .refused .pushNotEnabled

/-- `pull(k)`, enabled when `tx` is not empty: the host takes the first bit (R32). -/
def hostPull (k : Nat) (s : State) : StepResult :=
  match s.port? k with
  | none => .fault .noSuchPort
  | some p =>
    match p.tx with
    | [] => .refused .pullNotEnabled
    | b :: tx => .next ((s.setPort k { p with tx := tx }).record k b)

/-- Reset is always enabled (R200). -/
def hostReset (s : State) : StepResult := .next s.resetBlock

/-- One move of the host. -/
def hostMove (m : HostMove) (s : State) : StepResult :=
  match m with
  | .push k b => hostPush k b s
  | .pull k => hostPull k s
  | .reset => hostReset s

/-- A frame placed so that the very next step completes it: the selected port is `READY` with nothing waiting and
has received all of the frame but its last bit, and the host's next move pushes that bit (log entry 7). -/
def State.placeFrame (s : State) (frame : BitString) : State :=
  match frame.getLast? with
  | none => s
  | some b =>
    (s.setPort s.cur { mode := .ready, rx := frame.dropLast, tx := [] }).withMoves (.push s.cur b :: s.moves)

end Sys2Proof.Machine
end

