-- ==== Sys2Proof/Machine/Step.lean ====
section
/-! DEFINITION. One step of the machine: the host's next move (spec/10_state.md R32). -/

namespace Sys2Proof.Machine

/-- The host's next move is made; with no move planned the block waits as it is (spec/70_reset_and_hazards.md R205;
spec/60_exceptions.md R187; log entry 4). -/
def step (s : State) : Host.Outcome State Fault Refusal :=
  match s.moves with
  | [] => .next s
  | m :: ms => hostMove m (s.withMoves ms)

/-- The state with the frame of an opcode-table word placed so that the very next step runs it (log entries 7, 8). -/
def State.withFetchWord (s : State) (nbits w : Nat) : State := s.placeFrame (tableFrame s.cfg nbits w)

end Sys2Proof.Machine
end

