-- ==== Sys2Proof/Machine/Answer.lean ====
section
/-! DEFINITION. The command function of the spec, Command → Response, a total function of the command's fields and
the parameters (spec/30_encoding.md R69; spec/10_state.md R25), and the answer to one whole request frame (R32). -/

namespace Sys2Proof.Machine

/-- `exec(cmd)` of R69: the outcome of the instruction rule of the command. -/
def answer (c : Config) : Instr → Response
  | .enct t => answerEnct t
  | .dect a => answerDect a
  | .pars t => answerPars t
  | .rend a => answerRend a
  | .xorv a b => answerXorv a b
  | .encr a t => answerEncr a t
  | .decr a b => answerDecr a b
  | .veql n m => answerVeql n m
  | .vmul8 n => answerVmul8 n
  | .vklen n => answerVklen c n

/-- `transact(requestFrame) -> responseFrame` of R32: what a `READY` port with nothing waiting answers to a frame
pushed whole, with the mode it is left in; none for a frame that is incomplete. -/
def transact (c : Config) (frame : BitString) : Option (Mode × BitString) :=
  match parse c frame with
  | .incomplete => none
  | .complete i => some (.ready, encodeResponse c (answer c i))
  | .illegal reason value => some (.halted, encodeResponse c (.error ⟨.illegalCommand, reason, value⟩))

end Sys2Proof.Machine
end

