-- ==== Sys2Proof/Machine/HostScript.lean ====
section
/-! DEFINITION. Host scripts: commands with data flowing from one response into a later request, and the reference
shell's three operations written so (spec/30_encoding.md R74, R75, R77; spec/60_exceptions.md R188). The variables
are the host's memory, not the block's; nothing here is read by a step of the machine. -/

namespace Sys2Proof.Machine

/-- What a host variable holds: a result of the block (R74). -/
inductive HostValue where
  | bits (b : BitString)
  | text (t : Text)
  deriving DecidableEq, Repr

/-- An operand as written: a literal of R73 or a host variable (R74). -/
inductive Arg where
  | bits (b : BitString)
  | text (t : Text)
  | num (n : Nat)
  | var (name : String)
  deriving DecidableEq, Repr

/-- A line of a host script (R74). -/
inductive ScriptLine where
  /-- `$dst = OP args`, or `OP args` alone. -/
  | command (dst : Option String) (op : Op) (args : List Arg)
  /-- `$dst <- keysource(len)`; sends nothing to the block. -/
  | keysource (dst : String) (len : Nat)
  deriving DecidableEq, Repr

/-- The host's variables, latest first. -/
abbrev HostVars := List (String × HostValue)

/-- How a script ends. -/
inductive ScriptEnd where
  /-- Every line was answered `OK`. -/
  | finished (vars : HostVars)
  /-- A response was a failure: the script stops there and the failure is its outcome (R74). -/
  | failed (f : Failure)
  /-- The script is not one R73 and R74 allow: an unbound variable, an operand of the wrong type or number, an
  operand no field can carry, or a list of keys without one of the length asked for (log entry 16). -/
  | notAScript
  deriving DecidableEq, Repr

/-- A `<bits>` operand (R73, R74). -/
def Arg.bits? (vars : HostVars) : Arg → Option BitString
  | .bits b => some b
  | .text _ => none
  | .num _ => none
  | .var x => match vars.lookup x with
    | some (.bits b) => some b
    | some (.text _) => none
    | none => none

/-- A `<text>` operand (R73, R74). -/
def Arg.text? (vars : HostVars) : Arg → Option Text
  | .bits _ => none
  | .text t => some t
  | .num _ => none
  | .var x => match vars.lookup x with
    | some (.text t) => some t
    | some (.bits _) => none
    | none => none

/-- A `<num>` operand (R73). -/
def Arg.num? : Arg → Option Nat
  | .num n => some n
  | .bits _ => none
  | .text _ => none
  | .var _ => none

/-- The command a mnemonic and its written operands stand for, the operands in field order (R73, R75). -/
def commandOf (vars : HostVars) (op : Op) (args : List Arg) : Option Instr :=
  match op, args with
  | .enct, [x] => (x.text? vars).map .enct
  | .dect, [x] => (x.bits? vars).map .dect
  | .pars, [x] => (x.text? vars).map .pars
  | .rend, [x] => (x.bits? vars).map .rend
  | .xorv, [x, y] => (x.bits? vars).bind fun a => (y.bits? vars).map (.xorv a)
  | .encr, [x, y] => (x.bits? vars).bind fun a => (y.text? vars).map (.encr a)
  | .decr, [x, y] => (x.bits? vars).bind fun a => (y.bits? vars).map (.decr a)
  | .veql, [x, y] => x.num?.bind fun n => y.num?.map (.veql n)
  | .vmul8, [x] => x.num?.map .vmul8
  | .vklen, [x] => x.num?.map .vklen
  | _, _ => none

/-- How many characters the text of a command holds. -/
def textCount : Instr → Nat
  | .enct t => t.length
  | .pars t => t.length
  | .encr _ t => t.length
  | .dect _ => 0
  | .rend _ => 0
  | .xorv _ _ => 0
  | .decr _ _ => 0
  | .veql _ _ => 0
  | .vmul8 _ => 0
  | .vklen _ => 0

/-- What a command sent as a frame is answered: the command's response; the `IllegalCommand` of a text too long to
encode; none when some operand fits no field, so that there is no frame to send (R62, R67, R70). -/
def submit (c : Config) (i : Instr) : Option Response :=
  if i.fits c then
    if i.legal c then some (answer c i)
    else some (.error ⟨.illegalCommand, reasonTextTooLong, textCount i⟩)
  else none

/-- `$dst` bound to the result of an `OK` response; an `OK` that carries none binds nothing (R74). -/
def bindResult (vars : HostVars) (dst : Option String) : Response → HostVars
  | .okBits b => match dst with
    | some x => (x, .bits b) :: vars
    | none => vars
  | .okText t => match dst with
    | some x => (x, .text t) :: vars
    | none => vars
  | .okNone => vars
  | .error _ => vars

/-- A script run with the keys the key source will supply: each line in turn, stopping at the first failure (R74).
The key source checks the length asked of it with `V_KEYLEN` and supplies a key of exactly that length
(spec/00_scope.md R7; spec/41_length_validator.md R124). -/
def runScript (c : Config) : (keys : List BitString) → HostVars → List ScriptLine → ScriptEnd
  | _, vars, [] => .finished vars
  | keys, vars, .command dst op args :: rest =>
    match (commandOf vars op args).bind (submit c) with
    | none => .notAScript
    | some (.error f) => .failed f
    | some (.okBits b) => runScript c keys (bindResult vars dst (.okBits b)) rest
    | some (.okText t) => runScript c keys (bindResult vars dst (.okText t)) rest
    | some .okNone => runScript c keys (bindResult vars dst .okNone) rest
  | [], _, .keysource _ len :: _ =>
    match vKeyLen c len with
    | .error f => .failed f
    | .ok _ => .notAScript
  | k :: keys, vars, .keysource dst len :: rest =>
    match vKeyLen c len with
    | .error f => .failed f
    | .ok _ => if k.length = len then runScript c keys ((dst, .bits k) :: vars) rest else .notAScript

/-- What the host writes to its output file after the script: the named text, and nothing at all unless every line
was answered `OK` (R77, R188). -/
def outputFile (name : String) : ScriptEnd → Option Text
  | .finished vars => match vars.lookup name with
    | some (.text t) => some t
    | some (.bits _) => none
    | none => none
  | .failed _ => none
  | .notAScript => none

/-- The shell's `keygen L` (R77); the output file is `kt`. -/
def keygenScript (len : Nat) : List ScriptLine :=
  [.command none .vklen [.num len],
   .keysource "k" len,
   .command (some "kt") .rend [.var "k"]]

/-- The shell's `enc`, from the key file's text and the plaintext file's text (R77); the output file is `ct`. -/
def encScript (keyFile plaintextFile : Text) : List ScriptLine :=
  [.command (some "k") .pars [.text keyFile],
   .command (some "c") .encr [.var "k", .text plaintextFile],
   .command (some "ct") .rend [.var "c"]]

/-- The shell's `dec`, from the key file's text and the ciphertext file's text (R77); the output file is `p`. -/
def decScript (keyFile ciphertextFile : Text) : List ScriptLine :=
  [.command (some "k") .pars [.text keyFile],
   .command (some "c") .pars [.text ciphertextFile],
   .command (some "p") .decr [.var "k", .var "c"]]

end Sys2Proof.Machine
end

