-- ==== Sys2Proof/Machine/Reader.lean ====
section
/-! DEFINITION. The host's reading of a response frame: it knows which command it sent, and tells the format by that
and by the status (spec/30_encoding.md R65, R66, R68; spec/70_reset_and_hazards.md R210). Nothing here is read by a
step of the machine. -/

namespace Sys2Proof.Machine

/-- What a success of a command carries. -/
inductive Format where
  | okBits
  | okText
  | okNone
  deriving DecidableEq, Repr

/-- The response format each command uses on success (R65). -/
def successFormat : Op → Format
  | .enct => .okBits
  | .dect => .okText
  | .pars => .okBits
  | .rend => .okText
  | .xorv => .okBits
  | .encr => .okBits
  | .decr => .okText
  | .veql => .okNone
  | .vmul8 => .okNone
  | .vklen => .okNone

/-- The kind of failure a status stands for (spec/60_exceptions.md R171). -/
def kindOfStatus : Nat → Option Kind
  | 0x01 => some .invalidLength
  | 0x02 => some .lengthMismatch
  | 0x03 => some .malformedLength
  | 0x04 => some .encoding
  | 0x05 => some .bitChar
  | 0x7F => some .illegalCommand
  | _ => none

/-- The two numbers of an `ERR` frame (R66). -/
def readFailure (kind : Kind) (b : BitString) : Got (Option Response) :=
  (readNum b).andThen fun e0 r => (readNum r).map fun e1 => some (.error ⟨kind, e0, e1⟩)

/-- The result fields of an `OK` frame of a command (R65, R66). -/
def readSuccess (c : Config) (op : Op) (b : BitString) : Got (Option Response) :=
  match successFormat op with
  | .okBits => (readBits c b).map fun r => some (.okBits r)
  | .okText => (readText c b).map fun u => some (.okText u)
  | .okNone => .got (some .okNone) b

/-- The response at the front of the bits pulled so far, to a host that sent the command `op`; `none` inside for a
status the block never sends (R171). -/
def readResponse (c : Config) (op : Op) (b : BitString) : Got (Option Response) :=
  (readNumber 8 b).andThen fun status r =>
    if status = statusOk then readSuccess c op r
    else match kindOfStatus status with
      | some kind => readFailure kind r
      | none => .got none r

end Sys2Proof.Machine
end

