-- ==== Sys2Proof/Safety.lean ====
section
/-! DEFINITION. The terms that claims use: quiescence and the end of a run (spec/70_reset_and_hazards.md R214), the
size bounds of the streams (spec/30_encoding.md R68), and the invariant of the block. -/

namespace Sys2Proof.Machine

/-- A port is quiescent when `rx` and `tx` are both empty (R214). -/
def Port.quiescent (p : Port) : Bool := p.rx.isEmpty && p.tx.isEmpty

/-- The move is a push or a pull on port `k`. -/
def HostMove.isOn (k : Nat) : HostMove → Bool
  | .push j _ => j == k
  | .pull j => j == k
  | .reset => false

/-- The host plans no more pushes and pulls on port `k`. DESIGN CHOICE (log entry 18): R214 does not say whether a
host that still plans a reset has stopped; here a planned reset does not count, so it has. -/
def State.hostDone (s : State) (k : Nat) : Bool := s.moves.all fun m => !m.isOn k

/-- A run of the host on port `k` has ended well: the host has nothing more to do there (`hostDone`, log
entry 18), the port is quiescent and `READY` (R214). -/
def State.endedWell (s : State) (k : Nat) : Bool :=
  match s.port? k with
  | none => false
  | some p => s.hostDone k && p.quiescent && p.mode == .ready

/-- A run of the host on port `k` has ended badly: the port is `HALTED`, or the host stopped (`hostDone`, log
entry 18) with a frame unfinished or a response untaken (R214); a reset still planned may yet lift either. -/
def State.endedBadly (s : State) (k : Nat) : Bool :=
  match s.port? k with
  | none => false
  | some p => p.mode == .halted || (s.hostDone k && !p.quiescent)

/-- `push` is enabled on the port (R32). -/
def Port.pushEnabled (p : Port) : Bool := p.mode == .ready && p.tx.isEmpty

/-- `pull` is enabled on the port (R32). -/
def Port.pullEnabled (p : Port) : Bool := !p.tx.isEmpty

/-- A run of `n` steps, stopping at the first fault or refusal. -/
def steps : (n : Nat) → State → StepResult
  | 0, s => .next s
  | n + 1, s =>
    match step s with
    | .next t => steps n t
    | .fault r => .fault r
    | .refused r => .refused r

/-- The moves of a host that pushes a frame on port `k`, first bit first. -/
def pushFrame (k : Nat) (frame : BitString) : List HostMove := frame.map (.push k)

/-- The moves of a host that takes `n` response bits from port `k`. -/
def pullBits (k n : Nat) : List HostMove := List.replicate n (.pull k)

/-- The moves of one whole transaction on port `k`: the request frame pushed, then as many bits pulled as the
response has (spec/70_reset_and_hazards.md R203). -/
def transactionMoves (c : Config) (k : Nat) (i : Instr) : List HostMove :=
  pushFrame k (encode c i) ++ pullBits k (encodeResponse c (answer c i)).length

/-- The length of the longest request frame and of the longest response frame. At the default parameters it is the
`PARS` request and the `REND` response of `CAP_BITS` characters (R68); 72 bits are those of `VEQL` and of `ERR`. -/
def longestFrame (c : Config) : Nat := max 72 (8 + c.lenW + c.capBits * c.cpW)

/-- What holds of every port at every moment between steps: the bits in `rx` are an incomplete frame (R67), no
request bit is held while a response waits or the port is halted (R32, R179), and both buffers stay within the
longest frame (R24, R68). -/
def Port.Inv (c : Config) (p : Port) : Prop :=
  parse c p.rx = .incomplete ∧ (p.tx ≠ [] → p.rx = []) ∧ (p.mode = .halted → p.rx = []) ∧
    p.rx.length < longestFrame c ∧ p.tx.length ≤ longestFrame c

/-- The invariant of the block: a legal configuration, `NPORTS` ports, each as above. -/
def State.Inv (s : State) : Prop :=
  s.cfg.wf = true ∧ s.ports.length = s.cfg.nPorts ∧ ∀ p ∈ s.ports, p.Inv s.cfg

end Sys2Proof.Machine
end

