-- ==== Sys2Proof/Certificates/Slice0/Obligations.lean ====
section
/-! DEFINITION. The statements for the provers. -/

namespace Sys2Proof.Machine

/-- The state in which port `cur`, which was `p`, has emptied `rx` and holds `frame` in `tx`; its mode, every other
port and every other field are those of `s`. -/
def answered (s : State) (p : Port) (frame : BitString) : State :=
  { s with ports := s.ports.set s.cur { p with rx := [], tx := frame } }

/-- The `OK-B` frame of R66. -/
def okBitsFrame (c : Config) (r : BitString) : BitString := bitsOf 8 0x00 ++ bitsOf c.lenW r.length ++ r

/-- The `OK-T` frame of R66. -/
def okTextFrame (c : Config) (u : Text) : BitString :=
  bitsOf 8 0x00 ++ bitsOf c.lenW u.length ++ u.flatMap (bitsOf c.cpW)

/-- The `OK-0` frame of R66. -/
def okFrame : BitString := bitsOf 8 0x00

/-- The `ERR` frame of R66. -/
def errFrame (status e0 e1 : Nat) : BitString := bitsOf 8 status ++ bitsOf 32 e0 ++ bitsOf 32 e1

/-- The ten defined opcodes (R64). -/
def definedOpcodes : List Nat := [0x01, 0x02, 0x03, 0x04, 0x08, 0x09, 0x0A, 0x10, 0x11, 0x12]

/-- The move can touch port `k`: a push or a pull on it, or reset. -/
def HostMove.reaches (k : Nat) (m : HostMove) : Bool := m.isOn k || m == .reset

/-- The bits taken from port `k`. -/
def takenFrom (k : Nat) (l : List TakenBit) : List TakenBit := l.filter fun x => x.port == k

/-- The response bits of a frame in the host's hands. -/
def takenFrame (k : Nat) (frame : BitString) : List TakenBit := frame.map fun b => ⟨k, b⟩

/-- Two steps, from `s₁` and from `s₂`, do the same to port `k` and hand over the same bits. -/
def sameAt (k : Nat) (s₁ s₂ : State) : StepResult → StepResult → Prop
  | .next t₁, .next t₂ =>
    t₁.ports[k]? = t₂.ports[k]? ∧ ∃ new, t₁.taken = s₁.taken ++ new ∧ t₂.taken = s₂.taken ++ new
  | .fault f₁, .fault f₂ => f₁ = f₂
  | .refused r₁, .refused r₂ => r₁ = r₂
  | _, _ => False

end Sys2Proof.Machine

open Sys2Proof Sys2Proof.Machine

/-! ## The ten commands: each on a port that exists, with the response written out as R66 lays it out -/

/-- R100: `ENCT`. -/
def Obligations.EnctEncodesText : Prop :=
  ∀ (s : State) (p : Port) (t : Text), s.ports[s.cur]? = some p →
    encode s.cfg (.enct t) = bitsOf 8 0x01 ++ bitsOf s.cfg.lenW t.length ++ t.flatMap (bitsOf s.cfg.cpW) ∧
    ((∀ x ∈ t, x ≤ 255) → ∃ r : BitString,
      r.length = 8 * t.length ∧
      (∀ (j : Nat) (x : Nat) (k : Nat), t[j]? = some x → k < 8 → r[8 * j + k]? = some (x.testBit (7 - k))) ∧
      exec (.enct t) s = .next (answered s p (okBitsFrame s.cfg r))) ∧
    (∀ (j : Nat) (x : Nat), t[j]? = some x → 255 < x → (∀ (i : Nat) (y : Nat), i < j → t[i]? = some y → y ≤ 255) →
      exec (.enct t) s = .next (answered s p (errFrame 0x04 j x)))

/-- R101: `DECT`. -/
def Obligations.DectDecodesGroups : Prop :=
  ∀ (s : State) (p : Port) (a : BitString), s.ports[s.cur]? = some p →
    encode s.cfg (.dect a) = bitsOf 8 0x02 ++ bitsOf s.cfg.lenW a.length ++ a ∧
    (a.length % 8 = 0 → ∃ u : Text,
      u.length = a.length / 8 ∧
      (∀ (j : Nat) (x : Nat), u[j]? = some x → x ≤ 255 ∧ ∀ k : Nat, k < 8 → a[8 * j + k]? = some (x.testBit (7 - k))) ∧
      exec (.dect a) s = .next (answered s p (okTextFrame s.cfg u))) ∧
    (a.length % 8 ≠ 0 → exec (.dect a) s = .next (answered s p (errFrame 0x03 a.length 0)))

/-- R102: `PARS`. -/
def Obligations.ParsParsesBitText : Prop :=
  ∀ (s : State) (p : Port) (t : Text), s.ports[s.cur]? = some p →
    encode s.cfg (.pars t) = bitsOf 8 0x03 ++ bitsOf s.cfg.lenW t.length ++ t.flatMap (bitsOf s.cfg.cpW) ∧
    ((∀ x ∈ t, x = 0x30 ∨ x = 0x31) → ∃ r : BitString,
      r.length = t.length ∧
      (∀ (j : Nat) (x : Nat), t[j]? = some x → r[j]? = some (decide (x = 0x31))) ∧
      exec (.pars t) s = .next (answered s p (okBitsFrame s.cfg r))) ∧
    (∀ (j : Nat) (x : Nat), t[j]? = some x → x ≠ 0x30 → x ≠ 0x31 →
      (∀ (i : Nat) (y : Nat), i < j → t[i]? = some y → y = 0x30 ∨ y = 0x31) →
      exec (.pars t) s = .next (answered s p (errFrame 0x05 j x)))

/-- R103: `REND`, which never fails. -/
def Obligations.RendRendersBits : Prop :=
  ∀ (s : State) (p : Port) (a : BitString), s.ports[s.cur]? = some p →
    encode s.cfg (.rend a) = bitsOf 8 0x04 ++ bitsOf s.cfg.lenW a.length ++ a ∧
    ∃ u : Text, u.length = a.length ∧
      (∀ (j : Nat) (b : Bit), a[j]? = some b → u[j]? = some (if b then 0x31 else 0x30)) ∧
      exec (.rend a) s = .next (answered s p (okTextFrame s.cfg u))

/-- R150: `XORV`. -/
def Obligations.XorvXorsEqualLengths : Prop :=
  ∀ (s : State) (p : Port) (a b : BitString), s.ports[s.cur]? = some p →
    encode s.cfg (.xorv a b) =
      bitsOf 8 0x08 ++ bitsOf s.cfg.lenW a.length ++ a ++ bitsOf s.cfg.lenW b.length ++ b ∧
    (a.length = b.length → ∃ r : BitString,
      r.length = a.length ∧
      (∀ (j : Nat) (x y : Bit), a[j]? = some x → b[j]? = some y → r[j]? = some (x != y)) ∧
      exec (.xorv a b) s = .next (answered s p (okBitsFrame s.cfg r))) ∧
    (a.length ≠ b.length → exec (.xorv a b) s = .next (answered s p (errFrame 0x02 a.length b.length)))

/-- R151: `ENCR`, the failures in their order of precedence. -/
def Obligations.EncrEncryptsText : Prop :=
  ∀ (s : State) (p : Port) (a : BitString) (t : Text), s.ports[s.cur]? = some p →
    encode s.cfg (.encr a t) =
      bitsOf 8 0x09 ++ bitsOf s.cfg.lenW a.length ++ a ++ bitsOf s.cfg.lenW t.length ++
        t.flatMap (bitsOf s.cfg.cpW) ∧
    ((∀ x ∈ t, x ≤ 255) → a.length = 8 * t.length → ∃ r : BitString,
      r.length = a.length ∧
      (∀ (j : Nat) (x : Nat) (k : Nat) (y : Bit), t[j]? = some x → k < 8 → a[8 * j + k]? = some y →
        r[8 * j + k]? = some (y != x.testBit (7 - k))) ∧
      exec (.encr a t) s = .next (answered s p (okBitsFrame s.cfg r))) ∧
    (∀ (j : Nat) (x : Nat), t[j]? = some x → 255 < x → (∀ (i : Nat) (y : Nat), i < j → t[i]? = some y → y ≤ 255) →
      exec (.encr a t) s = .next (answered s p (errFrame 0x04 j x))) ∧
    ((∀ x ∈ t, x ≤ 255) → a.length ≠ 8 * t.length →
      exec (.encr a t) s = .next (answered s p (errFrame 0x02 a.length (8 * t.length))))

/-- R152: `DECR`, the failures in their order of precedence. -/
def Obligations.DecrDecryptsToText : Prop :=
  ∀ (s : State) (p : Port) (a b : BitString), s.ports[s.cur]? = some p →
    encode s.cfg (.decr a b) =
      bitsOf 8 0x0A ++ bitsOf s.cfg.lenW a.length ++ a ++ bitsOf s.cfg.lenW b.length ++ b ∧
    (a.length = b.length → b.length % 8 = 0 → ∃ u : Text,
      u.length = b.length / 8 ∧
      (∀ (j : Nat) (x : Nat), u[j]? = some x → x ≤ 255 ∧ ∀ (k : Nat) (y z : Bit), k < 8 → a[8 * j + k]? = some y → b[8 * j + k]? = some z →
        x.testBit (7 - k) = (y != z)) ∧
      exec (.decr a b) s = .next (answered s p (okTextFrame s.cfg u))) ∧
    (a.length ≠ b.length → exec (.decr a b) s = .next (answered s p (errFrame 0x02 a.length b.length))) ∧
    (a.length = b.length → b.length % 8 ≠ 0 →
      exec (.decr a b) s = .next (answered s p (errFrame 0x03 b.length 0)))

/-- R125: `VEQL`. -/
def Obligations.VeqlComparesLengths : Prop :=
  ∀ (s : State) (p : Port) (n m : Nat), s.ports[s.cur]? = some p →
    encode s.cfg (.veql n m) = bitsOf 8 0x10 ++ bitsOf 32 n ++ bitsOf 32 m ∧
    (n = m → exec (.veql n m) s = .next (answered s p okFrame)) ∧
    (n ≠ m → exec (.veql n m) s = .next (answered s p (errFrame 0x02 n m)))

/-- R126: `VMUL8`. -/
def Obligations.Vmul8TestsMultipleOfEight : Prop :=
  ∀ (s : State) (p : Port) (n : Nat), s.ports[s.cur]? = some p →
    encode s.cfg (.vmul8 n) = bitsOf 8 0x11 ++ bitsOf 32 n ∧
    (n % 8 = 0 → exec (.vmul8 n) s = .next (answered s p okFrame)) ∧
    (n % 8 ≠ 0 → exec (.vmul8 n) s = .next (answered s p (errFrame 0x03 n 0)))

/-- R127: `VKLEN`. -/
def Obligations.VklenTestsKeyLength : Prop :=
  ∀ (s : State) (p : Port) (n : Nat), s.ports[s.cur]? = some p →
    encode s.cfg (.vklen n) = bitsOf 8 0x12 ++ bitsOf 32 n ∧
    (1 ≤ n → n ≤ s.cfg.maxKeyBits → exec (.vklen n) s = .next (answered s p okFrame)) ∧
    (n < 1 ∨ s.cfg.maxKeyBits < n →
      exec (.vklen n) s = .next (answered s p (errFrame 0x01 n s.cfg.maxKeyBits)))

/-- R69: every command gets exactly one outcome, its answer, whatever the state of the port. -/
def Obligations.EveryCommandCompletes : Prop :=
  ∀ (i : Instr) (s : State) (p : Port), s.ports[s.cur]? = some p →
    exec i s = .next (answered s p (encodeResponse s.cfg (answer s.cfg i)))

/-- R66: the four response formats; and every result of a command some frame carries fits its field. -/
def Obligations.ResponsesAreLaidOutAndFit : Prop :=
  ∀ c : Config,
    (∀ r, encodeResponse c (.okBits r) = okBitsFrame c r) ∧
    (∀ u, encodeResponse c (.okText u) = okTextFrame c u) ∧
    encodeResponse c .okNone = okFrame ∧
    (∀ f, encodeResponse c (.error f) = errFrame f.kind.code f.e0 f.e1 ∧ f.kind.code ≠ 0x00) ∧
    (c.wf = true → ∀ i : Instr, i.wellFormed c = true →
      (∀ r, answer c i = .okBits r → r.length ≤ c.capBits) ∧
      (∀ u, answer c i = .okText u → u.length ≤ c.capBits ∧ ∀ x ∈ u, x ≤ 255) ∧
      (∀ f, answer c i = .error f → f.e0 < 2 ^ 32 ∧ f.e1 < 2 ^ 32))

/-- R172: a command raises no failure but those of its row, and each of those occurs. -/
def Obligations.FailureKindsByCommand : Prop :=
  let cells : List (Op × Kind) :=
    [(.enct, .encoding), (.dect, .malformedLength), (.pars, .bitChar), (.xorv, .lengthMismatch),
     (.encr, .encoding), (.encr, .lengthMismatch), (.decr, .lengthMismatch), (.decr, .malformedLength),
     (.veql, .lengthMismatch), (.vmul8, .malformedLength), (.vklen, .invalidLength)]
  (∀ (c : Config) (i : Instr) (f : Failure), answer c i = .error f → (i.op, f.kind) ∈ cells) ∧
    ∀ x ∈ cells, ∃ (i : Instr) (f : Failure),
      i.op = x.1 ∧ f.kind = x.2 ∧ i.wellFormed Config.default = true ∧ answer Config.default i = .error f

/-- R124, R9: the answer of every command but `VKLEN`, as a value before it is laid out as a frame, is the same in
every configuration; the bound on key lengths is applied in no other command. Which commands are legal and how a
response is laid out depend on `LEN_W` and `CP_W` (R8, R70) and are not spoken of here. -/
def Obligations.AnswerValuesUseNoParameterExceptInVklen : Prop :=
  ∀ (c d : Config) (i : Instr), i.op ≠ .vklen → answer c i = answer d i

/-! ## The steps of a port -/

/-- R32, the `Complete` case: the push that completes a frame runs the decoded command on that port, with the bit in
`rx`, the port selected and the move consumed. -/
def Obligations.StepRunsDecodedCommand : Prop :=
  ∀ (s : State) (k : Nat) (b : Bit) (ms : List HostMove) (p : Port) (i : Instr),
    s.moves = .push k b :: ms → s.ports[k]? = some p → p.mode = .ready → p.tx = [] →
    parse s.cfg (p.rx ++ [b]) = .complete i →
      step s = exec i { s with moves := ms, cur := k, ports := s.ports.set k { p with rx := p.rx ++ [b] } }

/-- R32, the `Incomplete` case, and R45: a bit that completes nothing is kept and has no other effect. -/
def Obligations.IncompleteFrameOnlyGrows : Prop :=
  ∀ (s : State) (k : Nat) (b : Bit) (ms : List HostMove) (p : Port),
    s.moves = .push k b :: ms → s.ports[k]? = some p → p.mode = .ready → p.tx = [] →
    parse s.cfg (p.rx ++ [b]) = .incomplete →
      step s = .next { s with moves := ms, cur := k, ports := s.ports.set k { p with rx := p.rx ++ [b] } }

/-- R32, `pull`: the first bit of `tx` goes to the host, whatever the mode. -/
def Obligations.PullTakesFirstBit : Prop :=
  ∀ (s : State) (k : Nat) (b : Bit) (tx : BitString) (ms : List HostMove) (p : Port),
    s.moves = .pull k :: ms → s.ports[k]? = some p → p.tx = b :: tx →
      step s = .next { s with
        moves := ms, ports := s.ports.set k { p with tx := tx }, taken := s.taken ++ [⟨k, b⟩] }

/-- R32 and U13: what is not enabled is no step; and a port number that does not exist faults (the model's choice,
log entries 3 and 9). -/
def Obligations.DisabledMovesAreNoSteps : Prop :=
  ∀ (s : State) (k : Nat) (ms : List HostMove),
    (∀ b p, s.moves = .push k b :: ms → s.ports[k]? = some p → p.mode = .halted ∨ p.tx ≠ [] →
      step s = .refused .pushNotEnabled) ∧
    (∀ p, s.moves = .pull k :: ms → s.ports[k]? = some p → p.tx = [] → step s = .refused .pullNotEnabled) ∧
    (∀ b, s.moves = .push k b :: ms → s.ports[k]? = none → step s = .fault .noSuchPort) ∧
    (s.moves = .pull k :: ms → s.ports[k]? = none → step s = .fault .noSuchPort)

/-- R179: the entry to the halt, what a halted port still does and no longer does, and the way back. -/
def Obligations.IllegalFrameHaltsUntilReset : Prop :=
  ∀ (s : State) (k : Nat) (p : Port) (ms : List HostMove), s.ports[k]? = some p →
    (∀ b reason value, s.moves = .push k b :: ms → p.mode = .ready → p.tx = [] →
      parse s.cfg (p.rx ++ [b]) = .illegal reason value →
      step s = .next { s with
        moves := ms, cur := k,
        ports := s.ports.set k { mode := .halted, rx := [], tx := errFrame 0x7F reason value } }) ∧
    (∀ b t, s.moves = .push k b :: ms → p.mode = .halted → step s ≠ .next t) ∧
    (∀ b tx, s.moves = .pull k :: ms → p.mode = .halted → p.tx = b :: tx →
      step s = .next { s with
        moves := ms, ports := s.ports.set k { p with tx := tx }, taken := s.taken ++ [⟨k, b⟩] }) ∧
    (s.moves = .reset :: ms → ∃ t, step s = .next t ∧ t.ports[k]? = some ⟨.ready, [], []⟩) ∧
    (∀ m t q, s.moves = m :: ms → m ≠ .reset → p.mode = .halted → step s = .next t → t.ports[k]? = some q →
      q.mode = .halted)

/-- R200: reset is enabled in every state and leaves every port as if never used, it changes nothing else, and no
other step takes a port out of the halt. -/
def Obligations.ResetReadiesEveryPort : Prop :=
  (∀ (s : State) (ms : List HostMove), s.moves = .reset :: ms →
    step s = .next { s with moves := ms, ports := List.replicate s.ports.length ⟨.ready, [], []⟩ }) ∧
  (∀ (s t : State) (k : Nat) (p q : Port), step s = .next t → s.ports[k]? = some p → t.ports[k]? = some q →
    p.mode = .halted → q.mode = .ready → ∃ ms, s.moves = .reset :: ms)

/-- R31: the values after reset, in every configuration. -/
def Obligations.ResetStateIsIdle : Prop :=
  (∀ (c : Config) (k : Nat), k < c.nPorts → (State.resetOf c).ports[k]? = some ⟨.ready, [], []⟩) ∧
    (∀ c : Config, (State.resetOf c).ports.length = c.nPorts ∧ (State.resetOf c).cfg = c) ∧
    State.reset = State.resetOf State.reset.cfg

/-- The model's choice of log entry 4, after R205 and R187: while the host does nothing the block stays as it is. -/
def Obligations.BlockWaitsForHost : Prop := ∀ s : State, s.moves = [] → step s = .next s

/-- R24, the row of `mode`: it changes only from `READY` to `HALTED` by an illegal frame on that port, and from
`HALTED` to `READY` by reset. -/
def Obligations.ModeChangesOnlyByIllegalFrameOrReset : Prop :=
  ∀ (s t : State) (k : Nat) (p q : Port), step s = .next t → s.ports[k]? = some p → t.ports[k]? = some q →
    p.mode ≠ q.mode →
      (p.mode = .ready ∧ q.mode = .halted ∧ ∃ b ms reason value, s.moves = .push k b :: ms ∧
        parse s.cfg (p.rx ++ [b]) = .illegal reason value) ∨
      (p.mode = .halted ∧ q.mode = .ready ∧ ∃ ms, s.moves = .reset :: ms)

/-- R33: no step of a port writes another port, and none reads another port. -/
def Obligations.PortsAreDisjoint : Prop :=
  (∀ (s t : State) (k : Nat) (m : HostMove) (ms : List HostMove), s.moves = m :: ms → m.isOn k = true →
    step s = .next t → t.ports.length = s.ports.length ∧ ∀ j, j ≠ k → t.ports[j]? = s.ports[j]?) ∧
  (∀ (s₁ s₂ : State) (k : Nat) (m : HostMove) (ms₁ ms₂ : List HostMove), m.isOn k = true →
    s₁.moves = m :: ms₁ → s₂.moves = m :: ms₂ → s₁.cfg = s₂.cfg → s₁.ports[k]? = s₂.ports[k]? →
    sameAt k s₁ s₂ (step s₁) (step s₂))

/-- R23: no step changes a parameter or the number of ports. -/
def Obligations.StepKeepsConfiguration : Prop :=
  ∀ s t : State, step s = .next t → t.cfg = s.cfg ∧ t.ports.length = s.ports.length

/-- R212: the step that takes the last bit of a legal or an illegal frame places the response. -/
def Obligations.RequestAnsweredInSameStep : Prop :=
  ∀ (s : State) (k : Nat) (b : Bit) (ms : List HostMove) (p : Port),
    s.moves = .push k b :: ms → s.ports[k]? = some p → p.mode = .ready → p.tx = [] →
    parse s.cfg (p.rx ++ [b]) ≠ .incomplete →
      ∃ t q, step s = .next t ∧ t.ports[k]? = some q ∧ q.rx = [] ∧ q.tx ≠ []

/-- R171, R173: a response that appears begins with one of the seven statuses, and one that is no success has 72
bits. -/
def Obligations.PlacedResponsesHaveListedStatus : Prop :=
  ∀ (s t : State) (k : Nat) (p q : Port), step s = .next t → s.ports[k]? = some p → t.ports[k]? = some q →
    p.tx = [] → q.tx ≠ [] →
      8 ≤ q.tx.length ∧ uint (q.tx.take 8) ∈ [0x00, 0x01, 0x02, 0x03, 0x04, 0x05, 0x7F] ∧
        (uint (q.tx.take 8) ≠ 0x00 → q.tx.length = 72)

/-! ## Whole transactions -/

/-- R25, R30, R32, R45: on an idle port, the bits of a command's frame pushed and its response pulled give the host
exactly the command's response, a function of the command and the parameters, and leave every port as it was. -/
def Obligations.TransactionAnswersAndLeavesNoTrace : Prop :=
  ∀ (s : State) (k : Nat) (i : Instr) (ms : List HostMove),
    s.cfg.wf = true → i.wellFormed s.cfg = true → s.ports[k]? = some ⟨.ready, [], []⟩ →
    s.moves = transactionMoves s.cfg k i ++ ms →
      steps (encode s.cfg i).length s = .next { s with
        cur := k, moves := pullBits k (encodeResponse s.cfg (answer s.cfg i)).length ++ ms,
        ports := s.ports.set k ⟨.ready, [], encodeResponse s.cfg (answer s.cfg i)⟩ } ∧
      steps (transactionMoves s.cfg k i).length s = .next { s with
        cur := k, moves := ms,
        taken := s.taken ++ takenFrame k (encodeResponse s.cfg (answer s.cfg i)) }

/-- R46: any sequence of commands on one port is answered in the order of the requests, one response each. -/
def Obligations.ResponsesLeaveInRequestOrder : Prop :=
  ∀ (s : State) (k : Nat) (is : List Instr) (ms : List HostMove),
    s.cfg.wf = true → (∀ i ∈ is, i.wellFormed s.cfg = true) → s.ports[k]? = some ⟨.ready, [], []⟩ →
    s.moves = is.flatMap (transactionMoves s.cfg k) ++ ms →
      ∃ t, steps (is.flatMap (transactionMoves s.cfg k)).length s = .next t ∧
        t.taken = s.taken ++ is.flatMap (fun i => takenFrame k (encodeResponse s.cfg (answer s.cfg i))) ∧
        t.ports = s.ports ∧ t.moves = ms ∧ t.cfg = s.cfg

/-- R32, last paragraph: `push` and `pull` bit by bit are equivalent to one step per transaction, for legal and
illegal frames alike. -/
def Obligations.BitStepsRefineTransact : Prop :=
  ∀ (s : State) (k : Nat) (frame : BitString) (mode : Mode) (response : BitString) (ms : List HostMove),
    s.ports[k]? = some ⟨.ready, [], []⟩ →
    (∀ n, n < frame.length → parse s.cfg (frame.take n) = .incomplete) →
    transact s.cfg frame = some (mode, response) →
    s.moves = pushFrame k frame ++ pullBits k response.length ++ ms →
      steps frame.length s = .next { s with
        cur := k, moves := pullBits k response.length ++ ms, ports := s.ports.set k ⟨mode, [], response⟩ } ∧
      steps (frame.length + response.length) s = .next { s with
        cur := k, moves := ms, ports := s.ports.set k ⟨mode, [], []⟩,
        taken := s.taken ++ takenFrame k response }

/-- R201, R202: from ANY state of the block, a halted or a half-received one among them, reset and then a command
give that command's response. -/
def Obligations.ResetThenTransactionFromAnyState : Prop :=
  ∀ (s : State) (k : Nat) (i : Instr) (ms : List HostMove),
    s.cfg.wf = true → i.wellFormed s.cfg = true → k < s.ports.length →
    s.moves = .reset :: transactionMoves s.cfg k i ++ ms →
      ∃ t, steps (1 + (transactionMoves s.cfg k i).length) s = .next t ∧
        t.ports = List.replicate s.ports.length ⟨.ready, [], []⟩ ∧ t.moves = ms ∧
        t.taken = s.taken ++ takenFrame k (encodeResponse s.cfg (answer s.cfg i))

/-- R47: what the moves of other ports do in between changes nothing for a port; it goes through the run of its own
moves (and of reset) alone. -/
def Obligations.InterleavingDoesNotMatter : Prop :=
  ∀ (s t : State) (k : Nat), steps s.moves.length s = .next t →
    ∃ t', steps (s.moves.filter (HostMove.reaches k)).length
        { s with moves := s.moves.filter (HostMove.reaches k) } = .next t' ∧
      t'.ports[k]? = t.ports[k]? ∧ takenFrom k t'.taken = takenFrom k t.taken

/-- R67, R70, R179: an undefined opcode is answered at its 8th bit and not before, and halts the port. -/
def Obligations.UndefinedOpcodeHaltsAtEighthBit : Prop :=
  ∀ (s : State) (k opc : Nat) (ms : List HostMove),
    s.ports[k]? = some ⟨.ready, [], []⟩ → opc < 256 → opc ∉ definedOpcodes →
    s.moves = pushFrame k (bitsOf 8 opc) ++ ms →
      steps 7 s = .next { s with
        cur := k, moves := pushFrame k ((bitsOf 8 opc).drop 7) ++ ms,
        ports := s.ports.set k ⟨.ready, (bitsOf 8 opc).take 7, []⟩ } ∧
      steps 8 s = .next { s with
        cur := k, moves := ms, ports := s.ports.set k ⟨.halted, [], errFrame 0x7F 1 opc⟩ }

/-- R67, R70, R179: in `ENCT` and `ENCR` a count whose encoding would exceed `CAP_BITS` is answered at the last bit
of the count, before any Code, and halts the port. -/
def Obligations.TooLongTextHaltsAtCount : Prop :=
  ∀ (s : State) (k n : Nat) (front : BitString) (ms : List HostMove),
    s.ports[k]? = some ⟨.ready, [], []⟩ → n < 2 ^ s.cfg.lenW → 8 * n > s.cfg.capBits →
    (front = bitsOf 8 0x01 ∨ ∃ a : BitString, a.length ≤ s.cfg.capBits ∧
      front = bitsOf 8 0x09 ++ bitsOf s.cfg.lenW a.length ++ a) →
    s.moves = pushFrame k (front ++ bitsOf s.cfg.lenW n) ++ ms →
      (∀ m, m < front.length + s.cfg.lenW → ∃ t q, steps m s = .next t ∧ t.ports[k]? = some q ∧
        q.mode = .ready ∧ q.tx = []) ∧
      steps (front.length + s.cfg.lenW) s = .next { s with
        cur := k, moves := ms, ports := s.ports.set k ⟨.halted, [], errFrame 0x7F 2 n⟩ }

/-- R214: a run of whole transactions on a port ends well, whatever their answers; a halted port, or one the host
left with a frame unfinished or a response untaken, has ended badly; and no run has ended both ways. That a host with
nothing but a reset still planned has left the port is the model's choice, log entry 18. -/
def Obligations.WholeTransactionsEndWell : Prop :=
  (∀ (s : State) (k : Nat) (is : List Instr),
    s.cfg.wf = true → (∀ i ∈ is, i.wellFormed s.cfg = true) → s.ports[k]? = some ⟨.ready, [], []⟩ →
    s.moves = is.flatMap (transactionMoves s.cfg k) →
      ∃ t, steps s.moves.length s = .next t ∧ t.endedWell k = true) ∧
  (∀ (s : State) (k : Nat) (p : Port), s.ports[k]? = some p →
    p.mode = .halted ∨ ((∀ m ∈ s.moves, m.isOn k = false) ∧ (p.rx ≠ [] ∨ p.tx ≠ [])) → s.endedBadly k = true) ∧
  (∀ (s : State) (k : Nat), ¬ (s.endedWell k = true ∧ s.endedBadly k = true))

/-! ## Invariants -/

/-- R24, R67, R68: what holds between steps holds after every step. -/
def Obligations.StepKeepsBlockInvariant : Prop := ∀ s t : State, s.Inv → step s = .next t → t.Inv

/-- The invariant holds after reset, in every legal configuration. -/
def Obligations.ResetStateHasInvariant : Prop :=
  (∀ c : Config, c.wf = true → (State.resetOf c).Inv) ∧ State.reset.Inv

/-! ## Encoding and decoding -/

/-- R60 to R63, R67: decoding a command's frame, whatever follows it, gives the command and leaves what follows. -/
def Obligations.DecodeEncodeRoundTrip : Prop :=
  ∀ (c : Config) (i : Instr) (rest : BitString), i.wellFormed c = true →
    decode c (encode c i ++ rest) = some (i, rest)

/-- R67: `Complete` is answered exactly when the last bit of the frame arrives. -/
def Obligations.ParseWaitsUntilLastBit : Prop :=
  ∀ (c : Config) (i : Instr), i.wellFormed c = true →
    (∀ n, n < (encode c i).length → parse c ((encode c i).take n) = .incomplete) ∧
      parse c (encode c i) = .complete i

/-- R62: there is no non-canonical frame; what decodes is the encoding of a well-formed command. -/
def Obligations.DecodedFrameIsCanonical : Prop :=
  ∀ (c : Config) (b : BitString) (i : Instr) (rest : BitString), decode c b = some (i, rest) →
    i.wellFormed c = true ∧ b = encode c i ++ rest

/-- R70: two things make a frame illegal, and only these two; 246 opcodes are undefined. -/
def Obligations.OnlyTwoThingsAreIllegal : Prop :=
  (∀ (c : Config) (rx : BitString) (reason value : Nat), parse c rx = .illegal reason value ↔
    (reason = 1 ∧ value < 256 ∧ value ∉ definedOpcodes ∧ ∃ r, rx = bitsOf 8 value ++ r) ∨
    (reason = 2 ∧ value < 2 ^ c.lenW ∧ 8 * value > c.capBits ∧
      ((∃ r, rx = bitsOf 8 0x01 ++ bitsOf c.lenW value ++ r) ∨
       ∃ a r, a.length ≤ c.capBits ∧
        rx = bitsOf 8 0x09 ++ bitsOf c.lenW a.length ++ a ++ bitsOf c.lenW value ++ r))) ∧
  ((List.range 256).filter fun v => !definedOpcodes.contains v).length = 246

/-- R65, R66, R68, R210: a host that knows which command it sent reads the response back from its bits, and until
the last bit is there it knows that more are to come; the answer to an illegal frame is read whatever was sent; and
the bits alone do not tell an `OK-T` from an `OK-B`, for every `OK-T` frame begins with one. -/
def Obligations.ResponseFramesReadBack : Prop :=
  (∀ (c : Config) (i : Instr) (rest : BitString), c.wf = true → i.wellFormed c = true →
    readResponse c i.op (encodeResponse c (answer c i) ++ rest) = .got (some (answer c i)) rest ∧
    ∀ n, n < (encodeResponse c (answer c i)).length →
      ∃ need, 0 < need ∧ readResponse c i.op ((encodeResponse c (answer c i)).take n) = .short need) ∧
  (∀ (c : Config) (op : Op) (reason value : Nat) (rest : BitString), reason < 2 ^ 32 → value < 2 ^ 32 →
    readResponse c op (errFrame 0x7F reason value ++ rest) =
      .got (some (.error { kind := .illegalCommand, e0 := reason, e1 := value })) rest) ∧
  (∀ (c : Config) (u : Text), c.wf = true →
    ∃ (r more : BitString), r.length = u.length ∧
      encodeResponse c (.okText u) = encodeResponse c (.okBits r) ++ more)

/-- R68: the shortest and the longest frames, each bound attained: below by an empty `ENCT` and by an `OK-0`, above by
`PARS` and the answer of `REND` at `CAP_BITS` characters, or, where those have fewer than 72 bits, by `VEQL` and its
`ERR`; at the default parameters 24, 8 and 1048584 bits. -/
def Obligations.FrameLengthBounds : Prop :=
  (∀ c : Config, c.wf = true →
    (∀ i : Instr, i.wellFormed c = true →
      8 + c.lenW ≤ (encode c i).length ∧ (encode c i).length ≤ longestFrame c ∧
      8 ≤ (encodeResponse c (answer c i)).length ∧ (encodeResponse c (answer c i)).length ≤ longestFrame c) ∧
    (Instr.enct []).wellFormed c = true ∧ (encode c (.enct [])).length = 8 + c.lenW ∧
    (∀ t : Text, t.length = c.capBits → (∀ x ∈ t, x < 2 ^ c.cpW) →
      (Instr.pars t).wellFormed c = true ∧ (encode c (.pars t)).length = 8 + c.lenW + c.capBits * c.cpW) ∧
    (Instr.veql 0 1).wellFormed c = true ∧ (encode c (.veql 0 1)).length = 72 ∧
      (encodeResponse c (answer c (.veql 0 1))).length = 72 ∧
    (Instr.vmul8 0).wellFormed c = true ∧ (encodeResponse c (answer c (.vmul8 0))).length = 8 ∧
    (∀ a : BitString, a.length = c.capBits →
      (Instr.rend a).wellFormed c = true ∧
      (encodeResponse c (answer c (.rend a))).length = 8 + c.lenW + c.capBits * c.cpW)) ∧
  8 + Config.default.lenW = 24 ∧ longestFrame Config.default = 1048584 ∧
    8 + Config.default.lenW + Config.default.capBits * Config.default.cpW = 1048584

/-- R78 and the worked examples of R103, R126: frames written out in the spec, byte by byte, decode to their
commands. -/
def Obligations.SpecFramesDecode : Prop :=
  let bytes := fun l : List Nat => l.flatMap (bitsOf 8)
  parse Config.default (bytes [0x09, 0x00, 0x08, 0x69, 0x00, 0x01, 0x00, 0x69]) =
    .complete (.encr [false, true, true, false, true, false, false, true] [0x69]) ∧
  parse Config.default (bytes [0x0A, 0x00, 0x08, 0x69, 0x00, 0x08, 0x00]) =
    .complete (.decr [false, true, true, false, true, false, false, true] (List.replicate 8 false)) ∧
  parse Config.default (bytes [0x08, 0x00, 0x08, 0x69, 0x00, 0x10, 0x00, 0x00]) =
    .complete (.xorv [false, true, true, false, true, false, false, true] (List.replicate 16 false)) ∧
  parse Config.default (bytes [0x01, 0x00, 0x01, 0x00, 0x69]) = .complete (.enct [0x69]) ∧
  parse Config.default (bytes [0x11, 0x00, 0x00, 0x00, 0x0C]) = .complete (.vmul8 12)

/-! ## The functions and their laws -/

/-- R14: the conversion primitives, position by position, and that they are inverse. -/
def Obligations.BitsAndNumbersAreInverse : Prop :=
  (∀ n v p, p < n → (bitsOf n v)[p]? = some (v.testBit (n - 1 - p))) ∧
  (∀ n v, (bitsOf n v).length = n) ∧
  (∀ b : BitString, uint b = ∑ p ∈ Finset.range b.length, (b.getD p false).toNat * 2 ^ (b.length - 1 - p)) ∧
  (∀ n v, v < 2 ^ n → uint (bitsOf n v) = v) ∧
  (∀ b : BitString, bitsOf b.length (uint b) = b)

/-- R96: the length laws. -/
def Obligations.CodecLengthLaws : Prop :=
  (∀ (t : Text) (b : BitString), encodeText t = .ok b → b.length = 8 * t.length) ∧
  (∀ b : BitString, b.length % 8 = 0 → ∃ u, decodeText b = .ok u ∧ u.length = b.length / 8 ∧ ∀ x ∈ u, x ≤ 255) ∧
  (∀ (t : Text) (b : BitString), parseBitString t = .ok b → b.length = t.length) ∧
  (∀ b : BitString, (renderBitString b).length = b.length ∧ ∀ x ∈ renderBitString b, x = 0x30 ∨ x = 0x31)

/-- R97: `encodeText` and `decodeText` are inverse, in both directions. -/
def Obligations.EncodeDecodeTextInverse : Prop :=
  (∀ t : Text, (∀ x ∈ t, x ≤ 255) → ∃ b, encodeText t = .ok b ∧ decodeText b = .ok t) ∧
  (∀ b : BitString, b.length % 8 = 0 → ∃ t, decodeText b = .ok t ∧ (∀ x ∈ t, x ≤ 255) ∧ encodeText t = .ok b)

/-- R98: `parseBitString` and `renderBitString` are inverse, in both directions. -/
def Obligations.RenderParseInverse : Prop :=
  (∀ b : BitString, parseBitString (renderBitString b) = .ok b) ∧
  (∀ t : Text, (∀ x ∈ t, x = 0x30 ∨ x = 0x31) → ∃ b, parseBitString t = .ok b ∧ renderBitString b = t)

/-- R99: the two text forms of the same bit text are different things. -/
def Obligations.TwoTextFormsDiffer : Prop :=
  (∀ t : Text, (∀ x ∈ t, x = 0x30 ∨ x = 0x31) →
    ∃ b d, encodeText t = .ok b ∧ parseBitString t = .ok d ∧ b.length = 8 * t.length ∧ d.length = t.length) ∧
  encodeText [0x30, 0x31] =
    .ok [false, false, true, true, false, false, false, false, false, false, true, true, false, false, false, true] ∧
  parseBitString [0x30, 0x31] = .ok [false, true]

/-- R142: involution. -/
def Obligations.ApplyIsInvolution : Prop :=
  ∀ k x : BitString, k.length = x.length → ∃ y, apply k x = .ok y ∧ apply k y = .ok x

/-- R143, R144: `apply` keeps the length, and fails exactly on a mismatch, with both lengths. -/
def Obligations.ApplyLengthAndMismatch : Prop :=
  ∀ k x : BitString,
    (∀ y, apply k x = .ok y → y.length = k.length ∧ y.length = x.length) ∧
    (∀ f, apply k x = .error f ↔
      k.length ≠ x.length ∧ f = { kind := .lengthMismatch, e0 := k.length, e1 := x.length })

/-- R145: the further laws, for operands of one length. -/
def Obligations.XorLaws : Prop :=
  ∀ k m x : BitString, k.length = x.length → m.length = x.length →
    apply k x = apply x k ∧
    (apply m x).bind (apply k) = (apply k m).bind (fun y => apply y x) ∧
    apply (List.replicate x.length false) x = .ok x ∧
    apply x x = .ok (List.replicate x.length false) ∧
    (apply k x = .ok m ↔ apply k m = .ok x) ∧ (apply k x = .ok m ↔ apply x m = .ok k) ∧
    apply (List.replicate x.length true) x = .ok (x.map not)

/-- R148: decryption undoes encryption. -/
def Obligations.DecryptUndoesEncrypt : Prop :=
  ∀ (k : BitString) (t : Text), (∀ x ∈ t, x ≤ 255) → k.length = 8 * t.length →
    ∃ y, encrypt k t = .ok y ∧ y.length = 8 * t.length ∧ decrypt k y = .ok t

/-- R151, R152, corner cases: `ENCR` answers as `ENCT` then `XORV`, `DECR` as `XORV` then `DECT`, failures
included. -/
def Obligations.EncrAndDecrAreCompositions : Prop :=
  ∀ c : Config,
    (∀ a t, answer c (.encr a t) =
      match answer c (.enct t) with
      | .okBits r => answer c (.xorv a r)
      | .okText u => .okText u
      | .okNone => .okNone
      | .error f => .error f) ∧
    (∀ a b, answer c (.decr a b) =
      match answer c (.xorv a b) with
      | .okBits r => answer c (.dect r)
      | .okText u => .okText u
      | .okNone => .okNone
      | .error f => .error f)

/-! ## The host's scripts -/

/-- R77 with R148: what `enc` writes, `dec` with the same key file turns back into the plaintext; the ciphertext
file is bit text as long as the key file. -/
def Obligations.EncThenDecScriptsGivePlaintextBack : Prop :=
  ∀ (c : Config) (keyFile plaintextFile : Text), c.wf = true →
    (∀ x ∈ keyFile, x = 0x30 ∨ x = 0x31) → (∀ x ∈ plaintextFile, x ≤ 255) →
    keyFile.length = 8 * plaintextFile.length → keyFile.length ≤ c.capBits →
      ∃ ct : Text,
        outputFile "ct" (runScript c [] [] (encScript keyFile plaintextFile)) = some ct ∧
        (∀ x ∈ ct, x = 0x30 ∨ x = 0x31) ∧ ct.length = keyFile.length ∧
        outputFile "p" (runScript c [] [] (decScript keyFile ct)) = some plaintextFile

/-- R77, R7: `keygen` writes the bit text of the drawn key, whatever it is, for every legal length, and for every
other length it ends in `InvalidLengthError` and writes nothing. -/
def Obligations.KeygenScriptWritesDrawnKey : Prop :=
  ∀ (c : Config) (len : Nat) (key : BitString), c.wf = true → len < 2 ^ 32 → key.length = len →
    (1 ≤ len ∧ len ≤ c.maxKeyBits → ∃ kt : Text,
      outputFile "kt" (runScript c [key] [] (keygenScript len)) = some kt ∧ kt.length = len ∧
      ∀ (j : Nat) (x : Bit), key[j]? = some x → kt[j]? = some (if x then 0x31 else 0x30)) ∧
    (len < 1 ∨ c.maxKeyBits < len →
      runScript c [key] [] (keygenScript len) = .failed { kind := .invalidLength, e0 := len, e1 := c.maxKeyBits } ∧
      outputFile "kt" (runScript c [key] [] (keygenScript len)) = none)

/-- R74, R188: a script stops at its first failure, whatever lines follow, and writes no file. -/
def Obligations.ScriptStopsAtFirstFailure : Prop :=
  ∀ (c : Config) (keys : List BitString) (vars : HostVars) (done rest : List ScriptLine) (f : Failure)
    (name : String), runScript c keys vars done = .failed f →
      runScript c keys vars (done ++ rest) = .failed f ∧
      outputFile name (runScript c keys vars (done ++ rest)) = none
end

