-- ==== Sys2Proof/Laws/Bits.lean ====
section
/-! SUPPORT. What the conversion primitives do: `bitsOf` and `uint` are inverse, positions, lengths, and the same
for a sequence of groups. -/

namespace Sys2Proof

@[simp] theorem length_bitsOf (n v : Nat) : (bitsOf n v).length = n := by
  induction n with
  | zero => rfl
  | succ n ih => simp [bitsOf, ih]

theorem getElem?_bitsOf {n v p : Nat} (h : p < n) : (bitsOf n v)[p]? = some (v.testBit (n - 1 - p)) := by
  induction n generalizing p with
  | zero => omega
  | succ n ih =>
    cases p with
    | zero => simp [bitsOf]
    | succ p =>
      have hp : p < n := by omega
      simp only [bitsOf, List.getElem?_cons_succ, ih hp]
      congr 2
      omega

theorem uint_lt (b : BitString) : uint b < 2 ^ b.length := by
  induction b with
  | nil => simp [uint]
  | cons x b ih =>
    have hx : x.toNat ≤ 1 := Bool.toNat_le x
    have : x.toNat * 2 ^ b.length ≤ 1 * 2 ^ b.length := Nat.mul_le_mul_right _ hx
    simp only [uint, List.length_cons, pow_succ]
    omega

theorem uint_append (a b : BitString) : uint (a ++ b) = uint a * 2 ^ b.length + uint b := by
  induction a with
  | nil => simp [uint]
  | cons x a ih =>
    simp only [List.cons_append, uint, ih, List.length_append, pow_add]
    ring

theorem uint_bitsOf_mod (n v : Nat) : uint (bitsOf n v) = v % 2 ^ n := by
  induction n with
  | zero => simp [bitsOf, uint, Nat.mod_one]
  | succ n ih =>
    simp only [bitsOf, uint, length_bitsOf, ih]
    have h := Nat.testBit_eq_decide_div_mod_eq (x := v) (i := n)
    have hb : (v.testBit n).toNat = v / 2 ^ n % 2 := by
      rw [h]
      rcases Nat.mod_two_eq_zero_or_one (v / 2 ^ n) with e | e <;> simp [e]
    rw [hb, pow_succ, Nat.mod_mul]
    ring

/-- `uint(bits_N(v)) = v` (R14). -/
theorem uint_bitsOf {n v : Nat} (h : v < 2 ^ n) : uint (bitsOf n v) = v := by
  rw [uint_bitsOf_mod, Nat.mod_eq_of_lt h]

theorem uint_injective {a b : BitString} (hl : a.length = b.length) (h : uint a = uint b) : a = b := by
  induction a generalizing b with
  | nil => cases b with
    | nil => rfl
    | cons _ _ => simp at hl
  | cons x a ih =>
    cases b with
    | nil => simp at hl
    | cons y b =>
      have hl' : a.length = b.length := by simpa using hl
      have ha := uint_lt a
      have hb := uint_lt b
      rw [← hl'] at hb
      simp only [uint, ← hl'] at h
      cases x <;> cases y <;> simp at h
      · rw [ih hl' h]
      · omega
      · omega
      · rw [ih hl' h]

/-- `bits_N(uint(b)) = b` for a BitString of length `N` (R14). -/
theorem bitsOf_uint (b : BitString) : bitsOf b.length (uint b) = b :=
  uint_injective (by simp) (uint_bitsOf (uint_lt b))

@[simp] theorem length_groupValues (w n : Nat) (b : BitString) : (groupValues w n b).length = n := by
  induction n generalizing b with
  | zero => rfl
  | succ n ih => simp [groupValues, ih]

@[simp] theorem length_flatMap_bitsOf (w : Nat) (t : List Nat) : (t.flatMap (bitsOf w)).length = t.length * w := by
  induction t with
  | nil => simp
  | cons x t ih => simp only [List.flatMap_cons, List.length_append, length_bitsOf, ih, List.length_cons]; ring

/-- Reading back the groups that were written. -/
theorem groupValues_flatMap {w : Nat} {t : List Nat} (h : ∀ x ∈ t, x < 2 ^ w) (r : BitString) :
    groupValues w t.length (t.flatMap (bitsOf w) ++ r) = t := by
  induction t with
  | nil => rfl
  | cons x t ih =>
    have hx : x < 2 ^ w := h x (by simp)
    simp only [List.length_cons, groupValues, List.flatMap_cons, List.append_assoc]
    rw [List.take_left' (length_bitsOf w x), List.drop_left' (length_bitsOf w x), uint_bitsOf hx,
      ih fun y hy => h y (by simp [hy])]

/-- Writing out the groups that were read. -/
theorem flatMap_groupValues {w n : Nat} {b : BitString} (h : b.length = n * w) :
    (groupValues w n b).flatMap (bitsOf w) = b := by
  induction n generalizing b with
  | zero => simpa [groupValues] using h
  | succ n ih =>
    have hw : w ≤ b.length := by rw [h, Nat.succ_mul]; omega
    have ht : (b.take w).length = w := by simpa using hw
    have hd : (b.drop w).length = n * w := by rw [List.length_drop, h, Nat.succ_mul]; omega
    have hu : bitsOf w (uint (b.take w)) = b.take w := by
      have := bitsOf_uint (b.take w)
      rwa [ht] at this
    simp only [groupValues, List.flatMap_cons, hu, ih hd, List.take_append_drop]

theorem groupValues_lt {w n : Nat} {b : BitString} : ∀ x ∈ groupValues w n b, x < 2 ^ w := by
  induction n generalizing b with
  | zero => simp [groupValues]
  | succ n ih =>
    intro x hx
    simp only [groupValues, List.mem_cons] at hx
    rcases hx with rfl | hx
    · exact (uint_lt _).trans_le (Nat.pow_le_pow_right (by decide) (by simp))
    · exact ih x hx

/-- Bit `k` of group `j` of a concatenation of groups stands at position `w*j + k` (R91 "equivalently", R43). -/
theorem getElem?_flatMap_bitsOf {w j k x : Nat} {t : List Nat} (hj : t[j]? = some x) (hk : k < w) :
    (t.flatMap (bitsOf w))[w * j + k]? = some (x.testBit (w - 1 - k)) := by
  induction t generalizing j with
  | nil => simp at hj
  | cons y t ih =>
    cases j with
    | zero =>
      simp only [List.getElem?_cons_zero, Option.some.injEq] at hj
      subst hj
      rw [List.flatMap_cons, List.getElem?_append_left (by simpa using hk)]
      simpa using getElem?_bitsOf hk
    | succ j =>
      simp only [List.getElem?_cons_succ] at hj
      rw [List.flatMap_cons, List.getElem?_append_right (by simp only [length_bitsOf, Nat.mul_succ]; omega),
        ← ih hj]
      congr 1
      simp only [length_bitsOf, Nat.mul_succ]
      omega

end Sys2Proof
end

