-- ==== Sys2Proof/Laws/Codec.lean ====
section
/-! SUPPORT. One lemma per outcome of each function of the codec, the validator and the XOR engine: when it gives a
value and which, when it fails and how. Callers cite these and do not unfold the functions. -/

namespace Sys2Proof.Machine

theorem firstBadFrom_none {bad : Nat → Bool} {j : Nat} {t : Text} :
    firstBadFrom bad j t = none ↔ ∀ x ∈ t, bad x = false := by
  induction t generalizing j with
  | nil => simp [firstBadFrom]
  | cons y t ih =>
    unfold firstBadFrom
    cases h : bad y <;> simp [h, ih]

theorem firstBadFrom_some {bad : Nat → Bool} {j : Nat} {t : Text} {i : Nat} {x : Nat} (hx : t[i]? = some x)
    (hb : bad x = true) (hlow : ∀ k y, k < i → t[k]? = some y → bad y = false) :
    firstBadFrom bad j t = some (j + i, x) := by
  induction t generalizing i j with
  | nil => simp at hx
  | cons y t ih =>
    cases i with
    | zero =>
      simp only [List.getElem?_cons_zero, Option.some.injEq] at hx
      subst hx
      simp [firstBadFrom, hb]
    | succ i =>
      have hy : bad y = false := hlow 0 y (by omega) (by simp)
      simp only [List.getElem?_cons_succ] at hx
      rw [firstBadFrom, hy]
      simp only [Bool.false_eq_true, if_false]
      rw [ih hx fun k z hk hz => hlow (k + 1) z (by omega) (by simpa using hz)]
      congr 2
      omega

theorem firstBad_none {bad : Nat → Bool} {t : Text} : firstBad bad t = none ↔ ∀ x ∈ t, bad x = false :=
  firstBadFrom_none

theorem firstBad_some {bad : Nat → Bool} {t : Text} {i : Nat} {x : Nat} (hx : t[i]? = some x) (hb : bad x = true)
    (hlow : ∀ k y, k < i → t[k]? = some y → bad y = false) : firstBad bad t = some (i, x) := by
  rw [firstBad, firstBadFrom_some hx hb hlow, Nat.zero_add]

theorem encodeText_ok {t : Text} (h : ∀ x ∈ t, x ≤ 255) : encodeText t = .ok (t.flatMap (bitsOf 8)) := by
  have : firstBad notSingleByte t = none := firstBad_none.mpr fun x hx => by simpa [notSingleByte] using h x hx
  rw [encodeText, this]
  rfl

theorem encodeText_bad {t : Text} {j : Nat} {x : Nat} (hx : t[j]? = some x) (hb : 255 < x)
    (hlow : ∀ k y, k < j → t[k]? = some y → y ≤ 255) : encodeText t = raise .encoding j x := by
  have : firstBad notSingleByte t = some (j, x) :=
    firstBad_some hx (by simpa [notSingleByte] using hb) fun k y hk hy => by
      simpa [notSingleByte] using hlow k y hk hy
  rw [encodeText, this]

theorem parseBitString_ok {t : Text} (h : ∀ x ∈ t, x = 0x30 ∨ x = 0x31) :
    parseBitString t = .ok (t.map fun x => x == 0x31) := by
  have : firstBad notBitChar t = none := firstBad_none.mpr fun x hx => by
    rcases h x hx with rfl | rfl <;> rfl
  rw [parseBitString, this]
  rfl

theorem parseBitString_bad {t : Text} {p : Nat} {x : Nat} (hx : t[p]? = some x) (hb : x ≠ 0x30 ∧ x ≠ 0x31)
    (hlow : ∀ k y, k < p → t[k]? = some y → y = 0x30 ∨ y = 0x31) : parseBitString t = raise .bitChar p x := by
  have : firstBad notBitChar t = some (p, x) :=
    firstBad_some hx (by simp [notBitChar, zeroCode, oneCode, hb.1, hb.2]) fun k y hk hy => by
      rcases hlow k y hk hy with rfl | rfl <;> rfl
  rw [parseBitString, this]

theorem encodeText_inv {t : Text} {b : BitString} (h : encodeText t = .ok b) :
    (∀ x ∈ t, x ≤ 255) ∧ b = t.flatMap (bitsOf 8) := by
  unfold encodeText at h
  cases hb : firstBad notSingleByte t with
  | some x => simp [hb, raise] at h
  | none =>
    simp only [hb, Except.ok.injEq] at h
    exact ⟨fun x hx => by simpa [notSingleByte] using firstBad_none.mp hb x hx, h.symm⟩

theorem parseBitString_inv {t : Text} {b : BitString} (h : parseBitString t = .ok b) :
    (∀ x ∈ t, x = 0x30 ∨ x = 0x31) ∧ b = t.map fun x => x == 0x31 := by
  unfold parseBitString at h
  cases hb : firstBad notBitChar t with
  | some x => simp [hb, raise] at h
  | none =>
    simp only [hb, Except.ok.injEq] at h
    refine ⟨fun x hx => ?_, h.symm⟩
    have := firstBad_none.mp hb x hx
    simpa only [notBitChar, zeroCode, oneCode, Bool.and_eq_false_iff, bne_eq_false_iff_eq] using this

theorem groupValues_le (n : Nat) (b : BitString) : ∀ x ∈ groupValues 8 n b, x ≤ 255 := by
  intro x hx
  have : x < 2 ^ 8 := groupValues_lt x hx
  omega

theorem vEq_self (n : Nat) : vEq n n = .ok () := by simp [vEq]

theorem vEq_ne {n m : Nat} (h : n ≠ m) : vEq n m = raise .lengthMismatch n m := by simp [vEq, h]

theorem vMul8_ok {n : Nat} (h : n % 8 = 0) : vMul8 n = .ok () := by simp [vMul8, h]

theorem vMul8_bad {n : Nat} (h : n % 8 ≠ 0) : vMul8 n = raise .malformedLength n 0 := by simp [vMul8, h]

theorem vKeyLen_ok {c : Config} {n : Nat} (h : 1 ≤ n ∧ n ≤ c.maxKeyBits) : vKeyLen c n = .ok () := by
  rw [vKeyLen, if_neg (by omega)]

theorem vKeyLen_bad {c : Config} {n : Nat} (h : n < 1 ∨ c.maxKeyBits < n) :
    vKeyLen c n = raise .invalidLength n c.maxKeyBits := by
  rw [vKeyLen, if_pos h]

theorem decodeText_ok {b : BitString} (h : b.length % 8 = 0) :
    decodeText b = .ok (groupValues 8 (b.length / 8) b) := by
  rw [decodeText, vMul8_ok h]
  rfl

theorem decodeText_bad {b : BitString} (h : b.length % 8 ≠ 0) :
    decodeText b = raise .malformedLength b.length 0 := by
  rw [decodeText, vMul8_bad h]
  rfl

theorem apply_ok {k x : BitString} (h : k.length = x.length) : apply k x = .ok (List.zipWith xorBit k x) := by
  rw [apply, h, vEq_self]
  rfl

theorem apply_bad {k x : BitString} (h : k.length ≠ x.length) :
    apply k x = raise .lengthMismatch k.length x.length := by
  rw [apply, vEq_ne h]
  rfl

@[simp] theorem xorBit_eq (x y : Bit) : xorBit x y = (x ^^ y) := by cases x <;> cases y <;> rfl

theorem encrypt_eq {k : BitString} {t : Text} (h : ∀ x ∈ t, x ≤ 255) :
    encrypt k t = apply k (t.flatMap (bitsOf 8)) := by
  rw [encrypt, encodeText_ok h]
  rfl

theorem decrypt_eq {k x : BitString} (h : k.length = x.length) :
    decrypt k x = decodeText (List.zipWith xorBit k x) := by
  rw [decrypt, apply_ok h]
  rfl

end Sys2Proof.Machine
end

