-- ==== Sys2Proof/Laws/Operands.lean ====
section
/-! SUPPORT. What reading a field does: it gives back what was written, it accepts only what can be written, and it
waits on every proper initial part of a field. -/

namespace Sys2Proof

theorem lt_of_le_capBits {c : Config} {n : Nat} (h : n ≤ c.capBits) : n < 2 ^ c.lenW := by
  have : 0 < 2 ^ c.lenW := Nat.two_pow_pos _
  unfold Config.capBits at h
  omega

theorem le_capBits_of_lt {c : Config} {n : Nat} (h : n < 2 ^ c.lenW) : n ≤ c.capBits := by
  unfold Config.capBits
  omega

theorem bitsFit_iff {c : Config} {b : BitString} : bitsFit c b = true ↔ b.length < 2 ^ c.lenW := by
  simp only [bitsFit, decide_eq_true_eq]
  exact ⟨lt_of_le_capBits, le_capBits_of_lt⟩

theorem textFits_iff {c : Config} {t : Text} :
    textFits c t = true ↔ t.length < 2 ^ c.lenW ∧ ∀ x ∈ t, x < 2 ^ c.cpW := by
  simp only [textFits, Bool.and_eq_true, decide_eq_true_eq, List.all_eq_true]
  exact and_congr_left fun _ => ⟨lt_of_le_capBits, le_capBits_of_lt⟩

theorem takeBits_append {n : Nat} {a : BitString} (h : a.length = n) (r : BitString) :
    takeBits n (a ++ r) = .got a r := by
  subst h
  simp [takeBits]

theorem takeBits_short {n : Nat} {b : BitString} (h : b.length < n) : takeBits n b = .short (n - b.length) := by
  simp [takeBits, h]

theorem takeBits_got {n : Nat} {b v r : BitString} (h : takeBits n b = .got v r) : b = v ++ r ∧ v.length = n := by
  unfold takeBits at h
  split at h
  · cases h
  · next hn =>
    cases h
    exact ⟨(List.take_append_drop n b).symm, by simpa using hn⟩

theorem readNumber_append {w v : Nat} (h : v < 2 ^ w) (r : BitString) :
    readNumber w (bitsOf w v ++ r) = .got v r := by
  simp [readNumber, takeBits_append (length_bitsOf w v), Got.map, uint_bitsOf h]

theorem readNumber_short {w : Nat} {b : BitString} (h : b.length < w) :
    readNumber w b = .short (w - b.length) := by
  simp [readNumber, takeBits_short h, Got.map]

theorem readNumber_got {w v : Nat} {b r : BitString} (h : readNumber w b = .got v r) :
    b = bitsOf w v ++ r ∧ v < 2 ^ w := by
  unfold readNumber at h
  cases ht : takeBits w b with
  | short k => simp [ht, Got.map] at h
  | got a r' =>
    simp only [ht, Got.map, Got.got.injEq] at h
    obtain ⟨rfl, rfl⟩ := h
    obtain ⟨rfl, rfl⟩ := takeBits_got ht
    exact ⟨by rw [bitsOf_uint], uint_lt a⟩

theorem readNum_append {v : Nat} (h : v < 2 ^ numW) (r : BitString) : readNum (writeNum v ++ r) = .got v r :=
  readNumber_append h r

theorem readNum_got {v : Nat} {b r : BitString} (h : readNum b = .got v r) :
    b = writeNum v ++ r ∧ v < 2 ^ numW :=
  readNumber_got h

theorem readBits_append {c : Config} {a : BitString} (h : bitsFit c a = true) (r : BitString) :
    readBits c (writeBits c a ++ r) = .got a r := by
  rw [readBits, readLen, writeBits, List.append_assoc, readNumber_append (bitsFit_iff.mp h)]
  exact takeBits_append rfl r

theorem readBits_got {c : Config} {a b r : BitString} (h : readBits c b = .got a r) :
    b = writeBits c a ++ r ∧ bitsFit c a = true := by
  unfold readBits readLen at h
  cases hn : readNumber c.lenW b with
  | short k => simp [hn, Got.andThen] at h
  | got n r' =>
    simp only [hn, Got.andThen] at h
    obtain ⟨rfl, hlt⟩ := readNumber_got hn
    obtain ⟨rfl, rfl⟩ := takeBits_got h
    exact ⟨by simp [writeBits], bitsFit_iff.mpr hlt⟩

theorem readBits_short {c : Config} {a : BitString} (h : bitsFit c a = true) {n : Nat}
    (hn : n < (writeBits c a).length) : ∃ k, readBits c ((writeBits c a).take n) = .short k := by
  by_cases hl : n < c.lenW
  · have : ((writeBits c a).take n).length < c.lenW := by rw [List.length_take]; omega
    exact ⟨_, by rw [readBits, readLen, readNumber_short this]; rfl⟩
  · have hlen : n - c.lenW < a.length := by
      simp only [writeBits, List.length_append, length_bitsOf] at hn
      omega
    have hs : (a.take (n - c.lenW)).length < a.length := by rw [List.length_take]; omega
    refine ⟨a.length - (a.take (n - c.lenW)).length, ?_⟩
    rw [writeBits, List.take_append, List.take_of_length_le (by simpa using hl), length_bitsOf, readBits, readLen,
      readNumber_append (bitsFit_iff.mp h)]
    exact takeBits_short hs

theorem readCodes_append {c : Config} {t : Text} (h : ∀ x ∈ t, x < 2 ^ c.cpW) (r : BitString) :
    readCodes c t.length (t.flatMap (bitsOf c.cpW) ++ r) = .got t r := by
  rw [readCodes, takeBits_append (by simp)]
  simpa [Got.map] using groupValues_flatMap h []

theorem readCodes_short {c : Config} {n : Nat} {b : BitString} (h : b.length < n * c.cpW) :
    readCodes c n b = .short (n * c.cpW - b.length) := by
  simp [readCodes, takeBits_short h, Got.map]

theorem readCodes_got {c : Config} {n : Nat} {t : Text} {b r : BitString} (h : readCodes c n b = .got t r) :
    b = t.flatMap (bitsOf c.cpW) ++ r ∧ t.length = n ∧ ∀ x ∈ t, x < 2 ^ c.cpW := by
  unfold readCodes at h
  cases ht : takeBits (n * c.cpW) b with
  | short k => simp [ht, Got.map] at h
  | got a r' =>
    simp only [ht, Got.map, Got.got.injEq] at h
    obtain ⟨rfl, rfl⟩ := h
    obtain ⟨rfl, ha⟩ := takeBits_got ht
    exact ⟨by rw [flatMap_groupValues ha], by simp, groupValues_lt⟩

theorem readText_append {c : Config} {t : Text} (h : textFits c t = true) (r : BitString) :
    readText c (writeText c t ++ r) = .got t r := by
  obtain ⟨hn, hx⟩ := textFits_iff.mp h
  rw [readText, readLen, writeText, List.append_assoc, readNumber_append hn]
  exact readCodes_append hx r

theorem readText_got {c : Config} {t : Text} {b r : BitString} (h : readText c b = .got t r) :
    b = writeText c t ++ r ∧ textFits c t = true := by
  unfold readText readLen at h
  cases hn : readNumber c.lenW b with
  | short k => simp [hn, Got.andThen] at h
  | got n r' =>
    simp only [hn, Got.andThen] at h
    obtain ⟨rfl, hlt⟩ := readNumber_got hn
    obtain ⟨rfl, rfl, hx⟩ := readCodes_got h
    exact ⟨by simp [writeText], textFits_iff.mpr ⟨hlt, hx⟩⟩

@[simp] theorem length_writeNum (n : Nat) : (writeNum n).length = 32 := length_bitsOf _ _

@[simp] theorem length_writeBits (c : Config) (b : BitString) : (writeBits c b).length = c.lenW + b.length := by
  simp [writeBits]

@[simp] theorem length_writeText (c : Config) (t : Text) :
    (writeText c t).length = c.lenW + t.length * c.cpW := by
  simp [writeText]

end Sys2Proof
end

