-- ==== Sys2Proof/Laws/Decode.lean ====
section
/-! SUPPORT. The opcode map, the field steps of the scan, and how `parse`, `decode` and `scan` hang together. -/

namespace Sys2Proof

@[simp] theorem ofCode_code (op : Op) : Op.ofCode op.code = some op := by cases op <;> rfl

theorem code_of_ofCode {n : Nat} {op : Op} (h : Op.ofCode n = some op) : op.code = n := by
  unfold Op.ofCode at h
  split at h <;> first | (cases h; rfl) | cases h

theorem code_lt (op : Op) : op.code < 2 ^ 8 := by cases op <;> decide

theorem scan_opcode (c : Config) (op : Op) (r : BitString) :
    scan c (bitsOf 8 op.code ++ r) = scanOperands c op r := by
  simp [scan, readNumber_append (code_lt op), Got.scan]

theorem scan_undefined (c : Config) {n : Nat} (hn : n < 2 ^ 8) (h : Op.ofCode n = none) (r : BitString) :
    scan c (bitsOf 8 n ++ r) = .illegal reasonUndefinedOpcode n r := by
  simp [scan, readNumber_append hn, Got.scan, h]

theorem scan_short (c : Config) {b : BitString} (h : b.length < 8) : scan c b = .incomplete (8 - b.length) := by
  simp [scan, readNumber_short h, Got.scan]

/-- Everything the front of a scan can be: too short for an opcode, an undefined opcode, or a command's operands. -/
theorem scan_cases (c : Config) (b : BitString) :
    (b.length < 8 ∧ scan c b = .incomplete (8 - b.length)) ∨
    (∃ n r, b = bitsOf 8 n ++ r ∧ n < 2 ^ 8 ∧ Op.ofCode n = none ∧ scan c b = .illegal reasonUndefinedOpcode n r) ∨
    ∃ op r, b = bitsOf 8 op.code ++ r ∧ scan c b = scanOperands c op r := by
  by_cases h : b.length < 8
  · exact .inl ⟨h, scan_short c h⟩
  · obtain ⟨n, r, hn⟩ : ∃ n r, readNumber 8 b = .got n r :=
      ⟨uint (b.take 8), b.drop 8, by simp [readNumber, takeBits, h, Got.map]⟩
    obtain ⟨rfl, hlt⟩ := readNumber_got hn
    cases ho : Op.ofCode n with
    | none => exact .inr (.inl ⟨n, r, rfl, hlt, ho, scan_undefined c hlt ho r⟩)
    | some op =>
      have := code_of_ofCode ho
      subst this
      exact .inr (.inr ⟨op, r, rfl, scan_opcode c op r⟩)

theorem scanEncodableText_append {c : Config} {t : Text} (h : textFits c t = true)
    (he : encodable c t.length = true) (r : BitString) (k : Text → BitString → Scan) :
    scanEncodableText c (writeText c t ++ r) k = k t r := by
  obtain ⟨hn, hx⟩ := textFits_iff.mp h
  have he' : ¬ 8 * t.length > c.capBits := by
    simpa only [encodable, decide_eq_true_eq, not_lt, gt_iff_lt] using he
  rw [scanEncodableText, readLen, writeText, List.append_assoc, readNumber_append hn]
  simp only [Got.scan]
  rw [if_neg he', readCodes_append hx]

theorem scanEncodableText_tooLong {c : Config} {n : Nat} (hn : n < 2 ^ c.lenW) (h : 8 * n > c.capBits)
    (r : BitString) (k : Text → BitString → Scan) :
    scanEncodableText c (bitsOf c.lenW n ++ r) k = .illegal reasonTextTooLong n r := by
  rw [scanEncodableText, readLen, readNumber_append hn]
  simp only [Got.scan]
  rw [if_pos h]

theorem parse_of_scan_incomplete {c : Config} {b : BitString} {n : Nat} (h : scan c b = .incomplete n) :
    parse c b = .incomplete := by
  simp [parse, h]

theorem parse_complete_iff {c : Config} {b : BitString} {i : Instr} :
    parse c b = .complete i ↔ ∃ r, scan c b = .complete i r := by
  unfold parse
  cases scan c b <;> simp

theorem parse_illegal_iff {c : Config} {b : BitString} {n v : Nat} :
    parse c b = .illegal n v ↔ ∃ r, scan c b = .illegal n v r := by
  unfold parse
  cases scan c b <;> simp

theorem parse_incomplete_iff {c : Config} {b : BitString} :
    parse c b = .incomplete ↔ ∃ n, scan c b = .incomplete n := by
  unfold parse
  cases scan c b <;> simp

end Sys2Proof
end

