-- ==== Sys2Proof/Laws/State.lean ====
section
/-! SUPPORT. One lemma per field per update of State, and what reading a port gives after an update. -/

namespace Sys2Proof.Machine

section
variable (s : State) (k : Nat) (p : Port) (b : Bit) (ms : List HostMove)

@[simp] theorem setPort_cfg : (s.setPort k p).cfg = s.cfg := rfl
@[simp] theorem setPort_ports : (s.setPort k p).ports = s.ports.set k p := rfl
@[simp] theorem setPort_cur : (s.setPort k p).cur = s.cur := rfl
@[simp] theorem setPort_moves : (s.setPort k p).moves = s.moves := rfl
@[simp] theorem setPort_taken : (s.setPort k p).taken = s.taken := rfl

@[simp] theorem select_cfg : (s.select k).cfg = s.cfg := rfl
@[simp] theorem select_ports : (s.select k).ports = s.ports := rfl
@[simp] theorem select_cur : (s.select k).cur = k := rfl
@[simp] theorem select_moves : (s.select k).moves = s.moves := rfl
@[simp] theorem select_taken : (s.select k).taken = s.taken := rfl

@[simp] theorem withMoves_cfg : (s.withMoves ms).cfg = s.cfg := rfl
@[simp] theorem withMoves_ports : (s.withMoves ms).ports = s.ports := rfl
@[simp] theorem withMoves_cur : (s.withMoves ms).cur = s.cur := rfl
@[simp] theorem withMoves_moves : (s.withMoves ms).moves = ms := rfl
@[simp] theorem withMoves_taken : (s.withMoves ms).taken = s.taken := rfl

@[simp] theorem record_cfg : (s.record k b).cfg = s.cfg := rfl
@[simp] theorem record_ports : (s.record k b).ports = s.ports := rfl
@[simp] theorem record_cur : (s.record k b).cur = s.cur := rfl
@[simp] theorem record_moves : (s.record k b).moves = s.moves := rfl
@[simp] theorem record_taken : (s.record k b).taken = s.taken ++ [⟨k, b⟩] := rfl

@[simp] theorem resetBlock_cfg : s.resetBlock.cfg = s.cfg := rfl
@[simp] theorem resetBlock_ports : s.resetBlock.ports = s.ports.map fun _ => Port.idle := rfl
@[simp] theorem resetBlock_cur : s.resetBlock.cur = s.cur := rfl
@[simp] theorem resetBlock_moves : s.resetBlock.moves = s.moves := rfl
@[simp] theorem resetBlock_taken : s.resetBlock.taken = s.taken := rfl

@[simp] theorem acceptBit_cfg : (s.acceptBit k p b).cfg = s.cfg := rfl
@[simp] theorem acceptBit_ports :
    (s.acceptBit k p b).ports = s.ports.set k { p with rx := p.rx ++ [b] } := rfl
@[simp] theorem acceptBit_cur : (s.acceptBit k p b).cur = k := rfl
@[simp] theorem acceptBit_moves : (s.acceptBit k p b).moves = s.moves := rfl
@[simp] theorem acceptBit_taken : (s.acceptBit k p b).taken = s.taken := rfl

@[simp] theorem port?_eq : s.port? k = s.ports[k]? := rfl

end

@[simp] theorem placed_mode (p : Port) (f : BitString) : (p.placed f).mode = p.mode := rfl
@[simp] theorem placed_rx (p : Port) (f : BitString) : (p.placed f).rx = [] := rfl
@[simp] theorem placed_tx (p : Port) (f : BitString) : (p.placed f).tx = f := rfl
@[simp] theorem halt_mode (p : Port) : p.halt.mode = .halted := rfl
@[simp] theorem halt_rx (p : Port) : p.halt.rx = p.rx := rfl
@[simp] theorem halt_tx (p : Port) : p.halt.tx = p.tx := rfl

@[simp] theorem idle_mode : Port.idle.mode = .ready := rfl
@[simp] theorem idle_rx : Port.idle.rx = [] := rfl
@[simp] theorem idle_tx : Port.idle.tx = [] := rfl

theorem ports_set_self {s : State} {k : Nat} {p q : Port} (h : s.ports[k]? = some p) :
    (s.ports.set k q)[k]? = some q := by
  obtain ⟨hk, _⟩ := List.getElem?_eq_some_iff.mp h
  simp [hk]

theorem ports_set_ne {s : State} {j k : Nat} (q : Port) (h : j ≠ k) : (s.ports.set k q)[j]? = s.ports[j]? := by
  simp [Ne.symm h]

theorem ports_set_same {s : State} {k : Nat} {p : Port} (h : s.ports[k]? = some p) : s.ports.set k p = s.ports := by
  obtain ⟨hk, rfl⟩ := List.getElem?_eq_some_iff.mp h
  simp

end Sys2Proof.Machine
end

