-- ==== Sys2Proof/Laws/Ops.lean ====
section
/-! SUPPORT. Everything the shared operations can do, said once each: placing a response, the entry to the halt, and
the execution of a command. -/

namespace Sys2Proof.Machine

/-- `updateCur` either finds no port and faults, or changes that port alone. -/
theorem updateCur_eq {s : State} {p : Port} (h : s.ports[s.cur]? = some p) (f : Port → Port) :
    s.updateCur f = .next { s with ports := s.ports.set s.cur (f p) } := by
  simp [State.updateCur, h, State.setPort]

theorem updateCur_none {s : State} (h : s.ports[s.cur]? = none) (f : Port → Port) :
    s.updateCur f = .fault .noSuchPort := by
  simp [State.updateCur, h]

theorem updateCur_next {s t : State} {f : Port → Port} (h : s.updateCur f = .next t) :
    ∃ p, s.ports[s.cur]? = some p ∧ t = { s with ports := s.ports.set s.cur (f p) } := by
  cases hp : s.ports[s.cur]? with
  | none => rw [updateCur_none hp] at h; cases h
  | some p => rw [updateCur_eq hp] at h; cases h; exact ⟨p, rfl, rfl⟩

theorem respond_eq {s : State} {p : Port} (h : s.ports[s.cur]? = some p) (r : Response) :
    s.respond r =
      .next { s with ports := s.ports.set s.cur { p with rx := [], tx := encodeResponse s.cfg r } } :=
  updateCur_eq h _

theorem takeIllegal_eq {s : State} {p : Port} (h : s.ports[s.cur]? = some p) (reason value : Nat) :
    s.takeIllegal reason value =
      .next { s with ports := s.ports.set s.cur { mode := .halted, rx := [], tx := bitsOf 8 0x7F ++ bitsOf 32 reason ++ bitsOf 32 value } } :=
  updateCur_eq h _

/-- Every command's execution is its answer placed on the selected port (R69). -/
theorem exec_eq_respond (i : Instr) (s : State) : exec i s = s.respond (answer s.cfg i) := by
  cases i <;> rfl

theorem exec_eq {s : State} {p : Port} (h : s.ports[s.cur]? = some p) (i : Instr) :
    exec i s =
      .next { s with ports := s.ports.set s.cur { p with rx := [], tx := encodeResponse s.cfg (answer s.cfg i) } } := by
  rw [exec_eq_respond, respond_eq h]

theorem exec_next {i : Instr} {s t : State} (h : exec i s = .next t) :
    ∃ p, s.ports[s.cur]? = some p ∧
      t = { s with ports := s.ports.set s.cur { p with rx := [], tx := encodeResponse s.cfg (answer s.cfg i) } } := by
  rw [exec_eq_respond] at h
  exact updateCur_next h

@[simp] theorem encodeResponse_ok_bits (c : Config) (r : BitString) :
    encodeResponse c (.okBits r) = bitsOf 8 0 ++ (bitsOf c.lenW r.length ++ r) := rfl

@[simp] theorem encodeResponse_ok_text (c : Config) (u : Text) :
    encodeResponse c (.okText u) = bitsOf 8 0 ++ (bitsOf c.lenW u.length ++ u.flatMap (bitsOf c.cpW)) := rfl

@[simp] theorem encodeResponse_ok_none (c : Config) : encodeResponse c .okNone = bitsOf 8 0 := rfl

@[simp] theorem encodeResponse_error (c : Config) (f : Failure) :
    encodeResponse c (.error f) = bitsOf 8 f.kind.code ++ bitsOf 32 f.e0 ++ bitsOf 32 f.e1 := rfl

theorem encodeResponse_ne_nil (c : Config) (r : Response) : encodeResponse c r ≠ [] := by
  cases r <;> simp [bitsOf]

end Sys2Proof.Machine
end

