-- ==== Sys2Proof/Laws/PerInstr.lean ====
section
/-! SUPPORT. Statements made of every command as it is written: the shape of its request frame. -/

namespace Sys2Proof.Laws.EncodingShape

/-- A command's frame begins with its own opcode, the opcode map gives the command back, and the frame's length is
the one of the table of R61. -/
def Statement (i : Instr) : Prop :=
  ∀ c : Config, (encode c i).take 8 = bitsOf 8 i.op.code ∧ Op.ofCode i.op.code = some i.op ∧
    (encode c i).length = frameLength c i

theorem take_opcode (c : Config) (i : Instr) : (encode c i).take 8 = bitsOf 8 i.op.code :=
  List.take_left' (length_bitsOf 8 _)

theorem enct (t : Text) : Statement (.enct t) := fun c =>
  ⟨take_opcode c _, ofCode_code _, by simp [encode, encodeOperands, frameLength, Nat.add_assoc]⟩

theorem dect (a : BitString) : Statement (.dect a) := fun c =>
  ⟨take_opcode c _, ofCode_code _, by simp [encode, encodeOperands, frameLength, Nat.add_assoc]⟩

theorem pars (t : Text) : Statement (.pars t) := fun c =>
  ⟨take_opcode c _, ofCode_code _, by simp [encode, encodeOperands, frameLength, Nat.add_assoc]⟩

theorem rend (a : BitString) : Statement (.rend a) := fun c =>
  ⟨take_opcode c _, ofCode_code _, by simp [encode, encodeOperands, frameLength, Nat.add_assoc]⟩

theorem xorv (a b : BitString) : Statement (.xorv a b) := fun c =>
  ⟨take_opcode c _, ofCode_code _, by simp [encode, encodeOperands, frameLength]; omega⟩

theorem encr (a : BitString) (t : Text) : Statement (.encr a t) := fun c =>
  ⟨take_opcode c _, ofCode_code _, by simp [encode, encodeOperands, frameLength]; omega⟩

theorem decr (a b : BitString) : Statement (.decr a b) := fun c =>
  ⟨take_opcode c _, ofCode_code _, by simp [encode, encodeOperands, frameLength]; omega⟩

theorem veql (n m : Nat) : Statement (.veql n m) := fun c =>
  ⟨take_opcode c _, ofCode_code _, by simp [encode, encodeOperands, frameLength]⟩

theorem vmul8 (n : Nat) : Statement (.vmul8 n) := fun c =>
  ⟨take_opcode c _, ofCode_code _, by simp [encode, encodeOperands, frameLength]⟩

theorem vklen (n : Nat) : Statement (.vklen n) := fun c =>
  ⟨take_opcode c _, ofCode_code _, by simp [encode, encodeOperands, frameLength]⟩

end Sys2Proof.Laws.EncodingShape
end

