-- ==== Sys2Proof/Laws/Steps.lean ====
section
/-! SUPPORT. Everything a step can do, said once: `push`, `pull` and reset when they are enabled and when they are
not, and the inversion of a step that answers a next state. -/

namespace Sys2Proof.Machine

theorem hostPush_incomplete {s : State} {k : Nat} {b : Bit} {p : Port} (hp : s.ports[k]? = some p)
    (hm : p.mode = .ready) (ht : p.tx = []) (hs : parse s.cfg (p.rx ++ [b]) = .incomplete) :
    hostPush k b s =
      .next { s with cur := k, ports := s.ports.set k { mode := .ready, rx := p.rx ++ [b], tx := [] } } := by
  obtain ⟨m, rx, tx⟩ := p
  simp only at hm ht hs
  subst hm ht
  simp [hostPush, hp, State.afterPush, hs, State.acceptBit, State.setPort, State.select]

theorem hostPush_complete {s : State} {k : Nat} {b : Bit} {p : Port} {i : Instr} (hp : s.ports[k]? = some p)
    (hm : p.mode = .ready) (ht : p.tx = []) (hs : parse s.cfg (p.rx ++ [b]) = .complete i) :
    hostPush k b s =
      exec i { s with cur := k, ports := s.ports.set k { mode := .ready, rx := p.rx ++ [b], tx := [] } } := by
  obtain ⟨m, rx, tx⟩ := p
  simp only at hm ht hs
  subst hm ht
  simp [hostPush, hp, State.afterPush, hs, State.acceptBit, State.setPort, State.select]

/-- A push that completes a command leaves the answer in `tx` and nothing in `rx`. -/
theorem hostPush_answers {s : State} {k : Nat} {b : Bit} {p : Port} {i : Instr} (hp : s.ports[k]? = some p)
    (hm : p.mode = .ready) (ht : p.tx = []) (hs : parse s.cfg (p.rx ++ [b]) = .complete i) :
    hostPush k b s =
      .next { s with cur := k, ports := s.ports.set k { mode := .ready, rx := [], tx := encodeResponse s.cfg (answer s.cfg i) } } := by
  rw [hostPush_complete hp hm ht hs, exec_eq (ports_set_self hp)]
  simp

theorem hostPush_illegal {s : State} {k : Nat} {b : Bit} {p : Port} {reason value : Nat}
    (hp : s.ports[k]? = some p) (hm : p.mode = .ready) (ht : p.tx = [])
    (hs : parse s.cfg (p.rx ++ [b]) = .illegal reason value) :
    hostPush k b s =
      .next { s with cur := k, ports := s.ports.set k { mode := .halted, rx := [], tx := bitsOf 8 0x7F ++ bitsOf 32 reason ++ bitsOf 32 value } } := by
  obtain ⟨m, rx, tx⟩ := p
  simp only at hm ht hs
  subst hm ht
  have hq := ports_set_self (q := { mode := .ready, rx := rx ++ [b], tx := [] }) hp
  simp only [hostPush, port?_eq, hp, State.afterPush, acceptBit_cfg, hs]
  rw [takeIllegal_eq (p := { mode := .ready, rx := rx ++ [b], tx := [] }) (by simpa using hq)]
  simp [State.acceptBit, State.setPort, State.select]

theorem hostPush_refused {s : State} {k : Nat} {b : Bit} {p : Port} (hp : s.ports[k]? = some p)
    (h : p.mode = .halted ∨ p.tx ≠ []) : hostPush k b s = .refused .pushNotEnabled := by
  obtain ⟨m, rx, tx⟩ := p
  simp only [hostPush, port?_eq, hp]
  cases m with
  | halted => rfl
  | ready =>
    cases tx with
    | nil => simp at h
    | cons x tx => rfl

theorem hostPush_fault {s : State} {k : Nat} {b : Bit} (hp : s.ports[k]? = none) :
    hostPush k b s = .fault .noSuchPort := by
  simp [hostPush, hp]

theorem hostPull_next {s : State} {k : Nat} {p : Port} {b : Bit} {tx : BitString} (hp : s.ports[k]? = some p)
    (ht : p.tx = b :: tx) :
    hostPull k s =
      .next { s with ports := s.ports.set k { p with tx := tx }, taken := s.taken ++ [⟨k, b⟩] } := by
  simp [hostPull, hp, ht, State.setPort, State.record]

theorem hostPull_refused {s : State} {k : Nat} {p : Port} (hp : s.ports[k]? = some p) (ht : p.tx = []) :
    hostPull k s = .refused .pullNotEnabled := by
  simp [hostPull, hp, ht]

theorem hostPull_fault {s : State} {k : Nat} (hp : s.ports[k]? = none) : hostPull k s = .fault .noSuchPort := by
  simp [hostPull, hp]

theorem step_idle {s : State} (h : s.moves = []) : step s = .next s := by simp [step, h]

theorem step_move {s : State} {m : HostMove} {ms : List HostMove} (h : s.moves = m :: ms) :
    step s = hostMove m { s with moves := ms } := by simp [step, h, State.withMoves]

/-- What a push can do: the four outcomes on a port that exists, and the fault on one that does not. -/
theorem hostPush_cases (k : Nat) (b : Bit) (s : State) :
    (s.ports[k]? = none ∧ hostPush k b s = .fault .noSuchPort) ∨
    ∃ p, s.ports[k]? = some p ∧
      (((p.mode = .halted ∨ p.tx ≠ []) ∧ hostPush k b s = .refused .pushNotEnabled) ∨
       (p.mode = .ready ∧ p.tx = [] ∧
        ((parse s.cfg (p.rx ++ [b]) = .incomplete ∧ hostPush k b s =
            .next { s with cur := k, ports := s.ports.set k { mode := .ready, rx := p.rx ++ [b], tx := [] } }) ∨
         (∃ i, parse s.cfg (p.rx ++ [b]) = .complete i ∧ hostPush k b s =
            .next { s with cur := k, ports := s.ports.set k { mode := .ready, rx := [], tx := encodeResponse s.cfg (answer s.cfg i) } }) ∨
         ∃ reason value, parse s.cfg (p.rx ++ [b]) = .illegal reason value ∧ hostPush k b s =
            .next { s with cur := k, ports := s.ports.set k { mode := .halted, rx := [], tx := bitsOf 8 0x7F ++ bitsOf 32 reason ++ bitsOf 32 value } }))) := by
  cases hp : s.ports[k]? with
  | none => exact .inl ⟨rfl, hostPush_fault hp⟩
  | some p =>
    refine .inr ⟨p, rfl, ?_⟩
    by_cases h : p.mode = .halted ∨ p.tx ≠ []
    · exact .inl ⟨h, hostPush_refused hp h⟩
    · have hm : p.mode = .ready := by
        cases e : p.mode with
        | ready => rfl
        | halted => exact absurd (.inl e) h
      have ht : p.tx = [] := by
        by_contra e
        exact h (.inr e)
      refine .inr ⟨hm, ht, ?_⟩
      cases hs : parse s.cfg (p.rx ++ [b]) with
      | incomplete => exact .inl ⟨rfl, hostPush_incomplete hp hm ht hs⟩
      | complete i => exact .inr (.inl ⟨i, rfl, hostPush_answers hp hm ht hs⟩)
      | illegal n v => exact .inr (.inr ⟨n, v, rfl, hostPush_illegal hp hm ht hs⟩)

/-- What a step that answers a next state did: nothing, a push in one of its three forms, a pull, or a reset. -/
theorem step_cases {s t : State} (h : step s = .next t) :
    (s.moves = [] ∧ t = s) ∨
    (∃ k b ms p, s.moves = .push k b :: ms ∧ s.ports[k]? = some p ∧ p.mode = .ready ∧ p.tx = [] ∧
      ((parse s.cfg (p.rx ++ [b]) = .incomplete ∧ t = { s with moves := ms, cur := k, ports := s.ports.set k { mode := .ready, rx := p.rx ++ [b], tx := [] } }) ∨
       (∃ i, parse s.cfg (p.rx ++ [b]) = .complete i ∧ t = { s with moves := ms, cur := k, ports := s.ports.set k { mode := .ready, rx := [], tx := encodeResponse s.cfg (answer s.cfg i) } }) ∨
       ∃ reason value, parse s.cfg (p.rx ++ [b]) = .illegal reason value ∧ t = { s with moves := ms, cur := k, ports := s.ports.set k { mode := .halted, rx := [], tx := bitsOf 8 0x7F ++ bitsOf 32 reason ++ bitsOf 32 value } })) ∨
    (∃ k ms p b tx, s.moves = .pull k :: ms ∧ s.ports[k]? = some p ∧ p.tx = b :: tx ∧ t = { s with
        moves := ms, ports := s.ports.set k { p with tx := tx }, taken := s.taken ++ [⟨k, b⟩] }) ∨
    (∃ ms, s.moves = .reset :: ms ∧ t = { s with
        moves := ms, ports := s.ports.map fun _ => Port.idle }) := by
  cases hm : s.moves with
  | nil => rw [step_idle hm] at h; cases h; exact .inl ⟨rfl, rfl⟩
  | cons m ms =>
    rw [step_move hm] at h
    cases m with
    | reset => cases h; exact .inr (.inr (.inr ⟨ms, rfl, rfl⟩))
    | pull k =>
      refine .inr (.inr (.inl ?_))
      simp only [hostMove] at h
      cases hp : s.ports[k]? with
      | none => rw [hostPull_fault (by exact hp)] at h; cases h
      | some p =>
        cases ht : p.tx with
        | nil => rw [hostPull_refused (by exact hp) ht] at h; cases h
        | cons b tx => rw [hostPull_next (by exact hp) ht] at h; cases h; exact ⟨k, ms, p, b, tx, rfl, hp, ht, rfl⟩
    | push k b =>
      refine .inr (.inl ?_)
      simp only [hostMove] at h
      rcases hostPush_cases k b { s with moves := ms } with ⟨_, e⟩ | ⟨p, hp, ⟨_, e⟩ | ⟨hr, ht, hc⟩⟩
      · rw [e] at h; cases h
      · rw [e] at h; cases h
      · refine ⟨k, b, ms, p, rfl, hp, hr, ht, ?_⟩
        rcases hc with ⟨hs, e⟩ | ⟨i, hs, e⟩ | ⟨n, v, hs, e⟩
        · rw [e] at h; cases h; exact .inl ⟨hs, rfl⟩
        · rw [e] at h; cases h; exact .inr (.inl ⟨i, hs, rfl⟩)
        · rw [e] at h; cases h; exact .inr (.inr ⟨n, v, hs, rfl⟩)

theorem steps_succ (n : Nat) (s : State) :
    steps (n + 1) s =
      match step s with
      | .next t => steps n t
      | .fault r => .fault r
      | .refused r => .refused r := rfl

theorem steps_zero (s : State) : steps 0 s = .next s := rfl

theorem steps_one_next {n : Nat} {s t : State} (h : step s = .next t) : steps (n + 1) s = steps n t := by
  rw [steps_succ, h]

/-- A run of `m + n` steps is a run of `m` and then one of `n`. -/
theorem steps_add {m n : Nat} {s t : State} (h : steps m s = .next t) : steps (m + n) s = steps n t := by
  induction m generalizing s with
  | zero => cases h; rw [Nat.zero_add]
  | succ m ih =>
    rw [steps_succ] at h
    rw [Nat.succ_add, steps_succ]
    cases hs : step s with
    | next u => rw [hs] at h; exact ih h
    | fault r => rw [hs] at h; cases h
    | refused r => rw [hs] at h; cases h

/-- The host's run is the only function that goes one step at a time. -/
theorem eq_run_of_recursion (M : Host.Core) (f : Nat → M.State → Host.Outcome M.State M.Fault M.Refusal)
    (h0 : ∀ s, f 0 s = .next s)
    (h1 : ∀ n s, f (n + 1) s =
      match M.step s with
      | .next t => f n t
      | .fault r => .fault r
      | .refused r => .refused r) (n : Nat) (s : M.State) : f n s = M.run n s := by
  induction n generalizing s with
  | zero => exact h0 s
  | succ n ih =>
    rw [h1, Host.Core.run]
    cases M.step s with
    | next t => exact ih t
    | fault r => rfl
    | refused r => rfl

/-- `steps` is the host's own `Core.run` of this machine. -/
theorem steps_eq_run (n : Nat) (s : State) : steps n s = Sys2Proof.core.run n s := by
  refine eq_run_of_recursion Sys2Proof.core steps (fun _ => rfl) (fun n s => ?_) n s
  change (match step s with
    | .next t => steps n t
    | .fault r => .fault r
    | .refused r => .refused r) = _
  cases h : step s <;> simp only [Sys2Proof.core, h]

end Sys2Proof.Machine
end

