-- ==== Sys2Proof/Machine/Assembler.lean ====
section
/-! DEFINITION. The written form of commands and host scripts, read from the characters of a line
(spec/30_encoding.md R73 to R76). Nothing here is read by a step of the machine. -/

namespace Sys2Proof.Machine

/-- The mnemonics of R64. -/
def Op.ofMnemonic : List Char → Option Op
  | ['E', 'N', 'C', 'T'] => some .enct
  | ['D', 'E', 'C', 'T'] => some .dect
  | ['P', 'A', 'R', 'S'] => some .pars
  | ['R', 'E', 'N', 'D'] => some .rend
  | ['X', 'O', 'R', 'V'] => some .xorv
  | ['E', 'N', 'C', 'R'] => some .encr
  | ['D', 'E', 'C', 'R'] => some .decr
  | ['V', 'E', 'Q', 'L'] => some .veql
  | ['V', 'M', 'U', 'L', '8'] => some .vmul8
  | ['V', 'K', 'L', 'E', 'N'] => some .vklen
  | _ => none

/-- The pieces of a line. -/
inductive Token where
  | word (w : List Char)
  | var (name : List Char)
  | bits (b : BitString)
  | text (t : Text)
  | num (n : Nat)
  | comma | lbracket | rbracket | lparen | rparen | equals | arrow
  deriving DecidableEq, Repr

/-- The value of a hexadecimal digit; a decimal digit is one below 10. -/
def digitValue (x : Char) : Option Nat :=
  let n := x.toNat
  if 0x30 ≤ n ∧ n ≤ 0x39 then some (n - 0x30)
  else if 0x41 ≤ n ∧ n ≤ 0x46 then some (n - 0x41 + 10)
  else if 0x61 ≤ n ∧ n ≤ 0x66 then some (n - 0x61 + 10)
  else none

/-- A letter, a digit or an underscore: the characters of a word, a number or a variable's name. -/
def wordChar (x : Char) : Bool :=
  let n := x.toNat
  (0x30 ≤ n && n ≤ 0x39) || (0x41 ≤ n && n ≤ 0x5A) || (0x61 ≤ n && n ≤ 0x7A) || n == 0x5F

/-- The digits of a number in the given base, at least one; none if a character is no digit of it. -/
def digitsValue (base : Nat) : (acc : Nat) → List Char → Option Nat
  | acc, [] => some acc
  | acc, x :: xs => match digitValue x with
    | some d => if d < base then digitsValue base (base * acc + d) xs else none
    | none => none

/-- A number: decimal, or hexadecimal with `0x` (R73). -/
def numberOf : List Char → Option Nat
  | '0' :: 'x' :: x :: xs => digitsValue 16 0 (x :: xs)
  | x :: xs => digitsValue 10 0 (x :: xs)
  | [] => none

/-- The inside of `b'...'`: `0` and `1`, position 0 leftmost; underscores are ignored (R73, log entry 17). -/
def bitsLiteral : List Char → Option BitString
  | [] => some []
  | '0' :: xs => (bitsLiteral xs).map (false :: ·)
  | '1' :: xs => (bitsLiteral xs).map (true :: ·)
  | '_' :: xs => bitsLiteral xs
  | _ :: _ => none

/-- The inside of a string literal: printable ASCII other than the double quote and the backslash, each standing
for its ASCII code (R73, R76). -/
def stringLiteral : List Char → Option Text
  | [] => some []
  | x :: xs =>
    if 0x20 ≤ x.toNat ∧ x.toNat ≤ 0x7E ∧ x.toNat ≠ 0x22 ∧ x.toNat ≠ 0x5C then
      (stringLiteral xs).map (x.toNat :: ·)
    else none

/-- The characters up to the closing one, and those after it; none if there is no closing one. -/
def upTo (close : Char) : List Char → Option (List Char × List Char)
  | [] => none
  | x :: xs => if x = close then some ([], xs) else (upTo close xs).map fun r => (x :: r.1, r.2)

/-- The tokens of a line; a `;` outside a literal starts a comment that runs to the end (R73). Each round takes at
least one character, so a line's length is fuel enough. -/
def tokens : (fuel : Nat) → List Char → Option (List Token)
  | 0, [] => some []
  | 0, _ :: _ => none
  | _ + 1, [] => some []
  | _ + 1, ';' :: _ => some []
  | k + 1, ' ' :: xs => tokens k xs
  | k + 1, '\t' :: xs => tokens k xs
  | k + 1, ',' :: xs => (tokens k xs).map (.comma :: ·)
  | k + 1, '[' :: xs => (tokens k xs).map (.lbracket :: ·)
  | k + 1, ']' :: xs => (tokens k xs).map (.rbracket :: ·)
  | k + 1, '(' :: xs => (tokens k xs).map (.lparen :: ·)
  | k + 1, ')' :: xs => (tokens k xs).map (.rparen :: ·)
  | k + 1, '=' :: xs => (tokens k xs).map (.equals :: ·)
  | k + 1, '<' :: '-' :: xs => (tokens k xs).map (.arrow :: ·)
  | k + 1, '"' :: xs =>
    (upTo '"' xs).bind fun r => (stringLiteral r.1).bind fun t => (tokens k r.2).map (.text t :: ·)
  | k + 1, 'b' :: '\'' :: xs =>
    (upTo '\'' xs).bind fun r => (bitsLiteral r.1).bind fun b => (tokens k r.2).map (.bits b :: ·)
  | k + 1, '$' :: xs => (tokens k (xs.dropWhile wordChar)).map (.var (xs.takeWhile wordChar) :: ·)
  | k + 1, x :: xs =>
    if wordChar x then
      let w := x :: xs.takeWhile wordChar
      let rest := tokens k (xs.dropWhile wordChar)
      if 0x30 ≤ x.toNat ∧ x.toNat ≤ 0x39 then (numberOf w).bind fun n => rest.map (.num n :: ·)
      else rest.map (.word w :: ·)
    else none

/-- The Codes of a list `t[...]` after its opening bracket, and the tokens after the closing one (R73). -/
def codeList : List Token → Option (Text × List Token)
  | .num n :: .comma :: .num m :: ts => (codeList (.num m :: ts)).map fun r => (n :: r.1, r.2)
  | .num n :: .rbracket :: ts => some ([n], ts)
  | _ => none

/-- One operand and the tokens after it (R73, R74). -/
def operand : List Token → Option (Arg × List Token)
  | .bits b :: ts => some (.bits b, ts)
  | .text t :: ts => some (.text t, ts)
  | .num n :: ts => some (.num n, ts)
  | .var x :: ts => if x.isEmpty then none else some (.var (String.ofList x), ts)
  | .word ['t'] :: .lbracket :: .rbracket :: ts => some (.text [], ts)
  | .word ['t'] :: .lbracket :: ts => (codeList ts).map fun r => (.text r.1, r.2)
  | _ => none

/-- The operands of a command, separated by commas (R73); each round takes at least one token. -/
def operands : (fuel : Nat) → List Token → Option (List Arg)
  | 0, _ => none
  | k + 1, ts =>
    match operand ts with
    | none => none
    | some (x, []) => some [x]
    | some (x, .comma :: rest) => (operands k rest).map (x :: ·)
    | some (_, _ :: _) => none

/-- A command: the mnemonic, then its operands (R73). -/
def commandLine (dst : Option String) : List Token → Option ScriptLine
  | .word w :: ts =>
    (Op.ofMnemonic w).bind fun op => (operands ts.length ts).map (.command dst op)
  | _ => none

/-- The word `keysource` of R74. -/
def keysourceWord : List Char := ['k', 'e', 'y', 's', 'o', 'u', 'r', 'c', 'e']

/-- One line of a host script: a command, `$name = <command>`, or `$name <- keysource(L)` (R73, R74). -/
def lineOfTokens : List Token → Option ScriptLine
  | .var x :: .equals :: ts => if x.isEmpty then none else commandLine (some (String.ofList x)) ts
  | [.var x, .arrow, .word w, .lparen, .num n, .rparen] =>
    if x.isEmpty ∨ w ≠ keysourceWord then none else some (.keysource (String.ofList x) n)
  | ts => commandLine none ts

/-- The characters of one line read as a line of a host script. -/
def assembleLine (line : List Char) : Option ScriptLine :=
  (tokens line.length line).bind lineOfTokens

/-- The characters of one line read as one command with no host variable in it (R73). -/
def assemble (line : List Char) : Option Instr :=
  match assembleLine line with
  | some (.command none op args) => commandOf [] op args
  | some (.command (some _) _ _) => none
  | some (.keysource _ _) => none
  | none => none

end Sys2Proof.Machine
end

