-- ==== Sys2Proof/Tests/Slice0.lean ====
section
/-! SUPPORT. Tests. Every expected value is written out from spec/95_test_vectors.md (V, Q, W, T, P numbers) or from
the worked examples of the instruction rules; then, for every obligation with hypotheses, a witness that meets
them. -/

namespace Sys2Proof.Tests

open Sys2Proof Sys2Proof.Machine

/-! ## Helpers -/

/-- Bits written as 0 and 1. -/
def b (l : List Nat) : BitString := l.map fun x => x == 1

/-- Bytes as hexadecimal pairs, each most significant bit first. -/
def bytes (l : List Nat) : BitString := l.flatMap fun x =>
  [x / 128 % 2 == 1, x / 64 % 2 == 1, x / 32 % 2 == 1, x / 16 % 2 == 1,
   x / 8 % 2 == 1, x / 4 % 2 == 1, x / 2 % 2 == 1, x % 2 == 1]

/-- The parameters of section 5 of the vectors. -/
def small : Config := { lenW := 8, cpW := 8, maxKeyBits := 16, nPorts := 1 }

/-- Parameters so narrow that every bound is in reach: `CAP_BITS` is 15 and `CAP_ENC` is 1. -/
def tiny : Config := { lenW := 4, cpW := 8, maxKeyBits := 8, nPorts := 1 }

/-- Port 0 of a block with the parameters `c` has received all of a frame but its last bit, which the host's next
move pushes. -/
def atLastBit (c : Config) (frame : BitString) : State :=
  { State.resetOf c with
    ports := [⟨.ready, frame.dropLast, []⟩], moves := [.push 0 (frame.getLastD false)] }

/-- Port 0 after one step; none if the step answered no next state. -/
def portAfter (s : State) : Option Port :=
  match step s with
  | .next t => t.ports[0]?
  | .fault _ => none
  | .refused _ => none

/-- The refusal a step answered. -/
def refusalOf (s : State) : Option Refusal :=
  match step s with
  | .next _ => none
  | .fault _ => none
  | .refused r => some r

/-- The fault a step answered. -/
def faultOf (s : State) : Option Fault :=
  match step s with
  | .next _ => none
  | .fault f => some f
  | .refused _ => none

/-- At the default parameters the last bit of `request` is answered by `response`, the port staying `READY`. -/
abbrev answers (request response : BitString) : Prop :=
  portAfter (atLastBit Config.default request) = some ⟨.ready, [], response⟩

/-! ## WellFormed refuses what no frame carries -/

theorem test_wf_bits_too_long :
    (Instr.dect (List.replicate 16 true)).fits tiny = false ∧
      (Instr.dect (List.replicate 15 true)).wellFormed tiny = true ∧
      (Instr.rend (List.replicate 16 true)).fits tiny = false := by decide

theorem test_wf_bits_too_long_either :
    (Instr.xorv [] (List.replicate 16 true)).fits tiny = false ∧
      (Instr.decr (List.replicate 16 true) []).fits tiny = false ∧
      (Instr.encr (List.replicate 16 true) []).fits tiny = false := by decide

theorem test_wf_text_too_long :
    (Instr.pars (List.replicate 16 0x30)).fits tiny = false ∧
      (Instr.pars (List.replicate 15 0x30)).wellFormed tiny = true ∧
      (Instr.enct (List.replicate 16 0x30)).fits tiny = false ∧
      (Instr.encr [] (List.replicate 16 0x30)).fits tiny = false := by decide

theorem test_wf_code_too_wide :
    (Instr.pars [0x30, 0x100]).wellFormed small = false ∧ (Instr.pars [0x30, 0xFF]).wellFormed small = true := by
  decide

theorem test_wf_number_too_wide :
    (Instr.veql 0 0x100000000).wellFormed small = false ∧ (Instr.veql 0 0xFFFFFFFF).wellFormed small = true ∧
      (Instr.vmul8 0x100000000).wellFormed small = false ∧ (Instr.vklen 0x100000000).wellFormed small = false := by
  decide

/-- `CAP_ENC` is 31 at the parameters of section 5 (Q10, Q11), and 1 at the tiny ones. -/
theorem test_wf_text_not_encodable :
    (Instr.enct (List.replicate 32 0x41)).legal small = false ∧
      (Instr.enct (List.replicate 31 0x41)).legal small = true ∧
      (Instr.enct [0x41, 0x41]).fits tiny = true ∧ (Instr.enct [0x41, 0x41]).wellFormed tiny = false ∧
      (Instr.encr [] [0x41, 0x41]).wellFormed tiny = false ∧ (Instr.encr [] [0x41]).wellFormed tiny = true := by
  decide

theorem test_config_wf :
    Config.default.wf = true ∧ small.wf = true ∧ ({ small with maxKeyBits := 256 } : Config).wf = false ∧
      ({ small with lenW := 0 } : Config).wf = false ∧ ({ small with cpW := 7 } : Config).wf = false ∧
      ({ small with nPorts := 0 } : Config).wf = false := by decide

/-! ## Decoding: the frames of the vectors -/

/-- V5. -/
theorem test_decode_enct :
    parse Config.default (bytes [0x01, 0x00, 0x03, 0x00, 0x69, 0x01, 0x00, 0x20, 0xAC]) =
      .complete (.enct [0x69, 0x100, 0x20AC]) := by decide

/-- V14. -/
theorem test_decode_dect :
    parse Config.default (bytes [0x02, 0x00, 0x0C, 0x48] ++ b [0, 1, 1, 0]) =
      .complete (.dect (b [0, 1, 0, 0, 1, 0, 0, 0, 0, 1, 1, 0])) := by decide

/-- V23. -/
theorem test_decode_pars :
    parse Config.default (bytes [0x03, 0x00, 0x04, 0x00, 0x30, 0x00, 0x31, 0x00, 0x32, 0x00, 0x30]) =
      .complete (.pars [0x30, 0x31, 0x32, 0x30]) := by decide

/-- V29. -/
theorem test_decode_rend :
    parse Config.default (bytes [0x04, 0x00, 0x04] ++ b [0, 0, 0, 1]) = .complete (.rend (b [0, 0, 0, 1])) := by decide

/-- V78: the two lengths differ. -/
theorem test_decode_xorv :
    parse Config.default (bytes [0x08, 0x00, 0x01] ++ b [1] ++ bytes [0x00, 0x00]) =
      .complete (.xorv (b [1]) []) := by decide

/-- V89: the text does not begin on a byte boundary. -/
theorem test_decode_encr :
    parse Config.default
        (bytes [0x09, 0x00, 0x07] ++ b [0, 1, 1, 0, 1, 0, 0] ++ bytes [0x00, 0x01, 0x00, 0x69]) =
      .complete (.encr (b [0, 1, 1, 0, 1, 0, 0]) [0x69]) := by decide

/-- V97. -/
theorem test_decode_decr :
    parse Config.default (bytes [0x0A, 0x00, 0x03] ++ b [1, 1, 0] ++ bytes [0x00, 0x04] ++ b [1, 0, 1, 0]) =
      .complete (.decr (b [1, 1, 0]) (b [1, 0, 1, 0])) := by decide

/-- V42. -/
theorem test_decode_veql :
    parse Config.default (bytes [0x10, 0, 0, 0, 0x08, 0, 0, 0, 0x10]) = .complete (.veql 8 16) := by decide

/-- V53. -/
theorem test_decode_vmul8 :
    parse Config.default (bytes [0x11, 0x00, 0x00, 0xFF, 0xF8]) = .complete (.vmul8 0xFFF8) := by decide

/-- V62. -/
theorem test_decode_vklen :
    parse Config.default (bytes [0x12, 0xFF, 0xFF, 0xFF, 0xFF]) = .complete (.vklen 0xFFFFFFFF) := by decide

/-- Q2: the same command at other parameters. -/
theorem test_decode_small :
    parse small (bytes [0x09, 0x08, 0x69, 0x01, 0x69]) = .complete (.encr (bytes [0x69]) [0x69]) := by decide

/-- W3, W7: undefined opcodes, at the 8th bit. -/
theorem test_decode_undefined :
    parse Config.default (bytes [0x07]) = .illegal 1 7 ∧ parse Config.default (bytes [0x7F]) = .illegal 1 127 := by
  decide

/-- W9, W11, W18: a text too long to encode, answered at the count; the same count is legal in `PARS`. -/
theorem test_decode_too_long :
    parse Config.default (bytes [0x01, 0x20, 0x00]) = .illegal 2 8192 ∧
      parse Config.default (bytes [0x09, 0x00, 0x08, 0x69, 0x20, 0x00]) = .illegal 2 8192 ∧
      parse Config.default (bytes [0x03, 0x20, 0x00]) = .incomplete := by decide

/-- T3: `Incomplete` after 8, 24, 25 and 41 of the 42 bits. -/
theorem test_decode_incomplete :
    let f := bytes [0x08, 0x00, 0x01] ++ b [0] ++ bytes [0x00, 0x01] ++ b [1]
    parse Config.default (f.take 8) = .incomplete ∧ parse Config.default (f.take 24) = .incomplete ∧
      parse Config.default (f.take 25) = .incomplete ∧ parse Config.default (f.take 41) = .incomplete := by decide

/-! ## One step for each command: the last request bit, and the response frame -/

/-- V2. -/
theorem test_enct_ok :
    answers (bytes [0x01, 0x00, 0x02, 0x00, 0x48, 0x00, 0x69]) (bytes [0x00, 0x00, 0x10, 0x48, 0x69]) := by decide

/-- V5: the first Code above 255 is reported, not the later one. -/
theorem test_enct_encoding_error :
    answers (bytes [0x01, 0x00, 0x03, 0x00, 0x69, 0x01, 0x00, 0x20, 0xAC])
      (bytes [0x04, 0, 0, 0, 0x01, 0, 0, 0x01, 0x00]) := by decide

/-- V11. -/
theorem test_dect_ok :
    answers (bytes [0x02, 0x00, 0x10, 0x48, 0x69]) (bytes [0x00, 0x00, 0x02, 0x00, 0x48, 0x00, 0x69]) := by decide

/-- V14. -/
theorem test_dect_malformed :
    answers (bytes [0x02, 0x00, 0x0C, 0x48] ++ b [0, 1, 1, 0]) (bytes [0x03, 0, 0, 0, 0x0C, 0, 0, 0, 0]) := by decide

/-- V19: leading zeros kept. -/
theorem test_pars_ok :
    answers (bytes [0x03, 0x00, 0x04, 0x00, 0x30, 0x00, 0x30, 0x00, 0x30, 0x00, 0x31])
      (bytes [0x00, 0x00, 0x04] ++ b [0, 0, 0, 1]) := by decide

/-- V26: a Code whose low byte is that of "0" is no bit character. -/
theorem test_pars_bit_char :
    answers (bytes [0x03, 0x00, 0x01, 0x01, 0x30]) (bytes [0x05, 0, 0, 0, 0, 0, 0, 0x01, 0x30]) := by decide

/-- V29. -/
theorem test_rend_ok :
    answers (bytes [0x04, 0x00, 0x04] ++ b [0, 0, 0, 1])
      (bytes [0x00, 0x00, 0x04, 0x00, 0x30, 0x00, 0x30, 0x00, 0x30, 0x00, 0x31]) := by decide

/-- V30. -/
theorem test_rend_empty : answers (bytes [0x04, 0x00, 0x00]) (bytes [0x00, 0x00, 0x00]) := by decide

/-- V72: the whole truth table. -/
theorem test_xorv_ok :
    answers (bytes [0x08, 0x00, 0x04] ++ b [1, 1, 0, 0] ++ bytes [0x00, 0x04] ++ b [1, 0, 1, 0])
      (bytes [0x00, 0x00, 0x04] ++ b [0, 1, 1, 0]) := by decide

/-- V80: the same number, different lengths. -/
theorem test_xorv_mismatch :
    answers (bytes [0x08, 0x00, 0x04] ++ b [0, 0, 0, 1] ++ bytes [0x00, 0x01] ++ b [1])
      (bytes [0x02, 0, 0, 0, 0x04, 0, 0, 0, 0x01]) := by decide

/-- V86. -/
theorem test_encr_ok :
    answers (bytes [0x09, 0x00, 0x10, 0xF0, 0xAA, 0x00, 0x02, 0x00, 0x48, 0x00, 0x69])
      (bytes [0x00, 0x00, 0x10, 0xB8, 0xC3]) := by decide

/-- V90: both defects together, `EncodingError` wins. -/
theorem test_encr_precedence :
    answers (bytes [0x09, 0x00, 0x08, 0x69, 0x00, 0x02, 0x01, 0x00, 0x00, 0x69])
      (bytes [0x04, 0, 0, 0, 0, 0, 0, 0x01, 0x00]) := by decide

/-- V93. -/
theorem test_decr_ok :
    answers (bytes [0x0A, 0x00, 0x10, 0xF0, 0xAA, 0x00, 0x10, 0xB8, 0xC3])
      (bytes [0x00, 0x00, 0x02, 0x00, 0x48, 0x00, 0x69]) := by decide

/-- V97: both defects together, `LengthMismatchError` wins. -/
theorem test_decr_precedence :
    answers (bytes [0x0A, 0x00, 0x03] ++ b [1, 1, 0] ++ bytes [0x00, 0x04] ++ b [1, 0, 1, 0])
      (bytes [0x02, 0, 0, 0, 0x03, 0, 0, 0, 0x04]) := by decide

/-- V46. -/
theorem test_veql_ok : answers (bytes [0x10, 0xFF, 0xFF, 0xFF, 0xFF, 0xFF, 0xFF, 0xFF, 0xFF]) (bytes [0x00]) := by decide

/-- V43: the first operand is always `E0`. -/
theorem test_veql_mismatch :
    answers (bytes [0x10, 0, 0, 0, 0x10, 0, 0, 0, 0x08]) (bytes [0x02, 0, 0, 0, 0x10, 0, 0, 0, 0x08]) := by decide

/-- V54. -/
theorem test_vmul8_ok : answers (bytes [0x11, 0xFF, 0xFF, 0xFF, 0xF8]) (bytes [0x00]) := by decide

/-- V50. -/
theorem test_vmul8_malformed :
    answers (bytes [0x11, 0, 0, 0, 0x0C]) (bytes [0x03, 0, 0, 0, 0x0C, 0, 0, 0, 0]) := by decide

/-- V60. -/
theorem test_vklen_ok : answers (bytes [0x12, 0, 0, 0, 0x80]) (bytes [0x00]) := by decide

/-- V61, and Q9 at other parameters: `E1` follows the parameter. -/
theorem test_vklen_invalid :
    answers (bytes [0x12, 0, 0, 0, 0x81]) (bytes [0x01, 0, 0, 0, 0x81, 0, 0, 0, 0x80]) ∧
      portAfter (atLastBit small (bytes [0x12, 0, 0, 0, 0x11])) =
        some ⟨.ready, [], bytes [0x01, 0, 0, 0, 0x11, 0, 0, 0, 0x10]⟩ := by decide

/-! ## The steps of a port -/

/-- W2, T5: an undefined opcode halts the port. -/
theorem test_illegal_opcode :
    portAfter (atLastBit Config.default (bytes [0x05])) =
      some ⟨.halted, [], bytes [0x7F, 0, 0, 0, 0x01, 0, 0, 0, 0x05]⟩ := by decide

/-- W9, and Q11 at other parameters: a text too long to encode halts the port at its count. -/
theorem test_illegal_count :
    portAfter (atLastBit Config.default (bytes [0x01, 0x20, 0x00])) =
        some ⟨.halted, [], bytes [0x7F, 0, 0, 0, 0x02, 0, 0, 0x20, 0x00]⟩ ∧
      portAfter (atLastBit small (bytes [0x01, 0x20])) =
        some ⟨.halted, [], bytes [0x7F, 0, 0, 0, 0x02, 0, 0, 0, 0x20]⟩ := by decide

/-- T5: reset lifts the halt and drops the response. -/
theorem test_reset_lifts_halt :
    portAfter { State.reset with ports := [⟨.halted, [], bytes [0x7F]⟩], moves := [.reset] } =
      some ⟨.ready, [], []⟩ := by decide

/-- T4: a push while a response waits is no step; T5: neither is one to a halted port, nor a pull from nothing. -/
theorem test_not_enabled :
    refusalOf { State.reset with ports := [⟨.ready, [], [true]⟩], moves := [.push 0 false] } =
        some .pushNotEnabled ∧
      refusalOf { State.reset with ports := [⟨.halted, [], []⟩], moves := [.push 0 false] } =
        some .pushNotEnabled ∧
      refusalOf { State.reset with moves := [.pull 0] } = some .pullNotEnabled := by decide

/-- A port number that does not exist. -/
theorem test_no_such_port :
    faultOf { State.reset with moves := [.push 1 false] } = some .noSuchPort ∧
      faultOf { State.reset with moves := [.pull 1] } = some .noSuchPort := by decide

/-- T1: the first pull, from a halted port too. -/
theorem test_pull_takes_first :
    portAfter { State.reset with ports := [⟨.halted, [], b [0, 1]⟩], moves := [.pull 0] } =
      some ⟨.halted, [], b [1]⟩ := by decide

/-- T8: a wrong `LEN` waits for more bits. -/
theorem test_wrong_length_waits :
    portAfter (atLastBit Config.default (bytes [0x04, 0x00, 0x08] ++ b [0, 1, 1, 0])) =
      some ⟨.ready, bytes [0x04, 0x00, 0x08] ++ b [0, 1, 1, 0], []⟩ := by decide

/-! ## The host's reading of the opcode table -/

/-- The first word of `ENCR` is 0x09; with zeros after it, it is the empty command. -/
theorem test_table_word :
    decodeTableWord 8 0x09 = some (.encr [] []) ∧ decodeTableWord 8 0x12 = some (.vklen 0) ∧
      decodeTableWord 8 0x05 = none := by decide

/-- The bytes of V57, numbered as the table numbers bits: the first byte is the low one. -/
theorem test_table_word_operands : decodeTableWord 40 0x0100000012 = some (.vklen 1) := by decide

/-- The very next step runs the placed command: `VMUL8 0` (V48) answers OK. -/
theorem test_fetch_word :
    portAfter (State.reset.withFetchWord 8 0x11) = some ⟨.ready, [], bytes [0x00]⟩ := by decide

/-! ## The host's side: responses read back, the written form, the host scripts -/

/-- V42 and V19 read back by a host that knows what it sent; a status the block never sends. -/
theorem test_read_response :
    readResponse Config.default .veql (bytes [0x02, 0, 0, 0, 0x08, 0, 0, 0, 0x10]) =
        .got (some (.error ⟨.lengthMismatch, 8, 16⟩)) [] ∧
      readResponse Config.default .pars (bytes [0x00, 0x00, 0x04] ++ b [0, 0, 0, 1, 1]) =
        .got (some (.okBits (b [0, 0, 0, 1]))) [true] ∧
      readResponse Config.default .rend (bytes [0x06]) = .got none [] := by decide

/-- R73: bit literals with an ignored underscore, a string, a list of Codes, numbers in both bases, a comment. -/
theorem test_assemble :
    assemble ['E', 'N', 'C', 'R', ' ', 'b', '\'', '0', '1', '1', '0', '_', '1', '0', '0', '1', '\'', ',', ' ',
        '"', 'i', '"', ' ', ';', ' ', 'S', '1'] = some (.encr (bytes [0x69]) [0x69]) ∧
      assemble ['E', 'N', 'C', 'T', ' ', 't', '[', '0', 'x', '6', '9', ',', ' ', '2', '5', '6', ']'] =
        some (.enct [0x69, 256]) ∧
      assemble ['V', 'E', 'Q', 'L', ' ', '8', ',', ' ', '0', 'x', '1', '0'] = some (.veql 8 16) := by decide

/-- Operands of the wrong type or number are no command. -/
theorem test_assemble_refuses :
    assemble ['V', 'E', 'Q', 'L', ' ', '8'] = none ∧
      assemble ['D', 'E', 'C', 'T', ' ', '"', 'i', '"'] = none ∧
      assemble ['N', 'O', 'P', ' ', '1'] = none := by decide

/-- R74. -/
theorem test_assemble_keysource :
    assembleLine ['$', 'k', ' ', '<', '-', ' ', 'k', 'e', 'y', 's', 'o', 'u', 'r', 'c', 'e', '(', '8', ')'] =
      some (.keysource "k" 8) := by decide

/-- P1: `enc` writes the ciphertext file's eight characters. -/
theorem test_script_enc :
    outputFile "ct" (runScript Config.default [] []
      (encScript [0x30, 0x31, 0x31, 0x30, 0x31, 0x30, 0x30, 0x31] [0x69])) =
        some (List.replicate 8 0x30) := by decide

/-- P4: a key too short leaves no output and the two lengths. -/
theorem test_script_enc_mismatch :
    runScript Config.default [] [] (encScript [0x30, 0x31, 0x31, 0x30, 0x31, 0x30, 0x30, 0x31] [0x48, 0x69]) =
      .failed ⟨.lengthMismatch, 8, 16⟩ := by decide

/-- P1: `dec` gives the plaintext back; P7: a line feed in the key file is reported. -/
theorem test_script_dec :
    outputFile "p" (runScript Config.default [] []
      (decScript [0x30, 0x31, 0x31, 0x30, 0x31, 0x30, 0x30, 0x31] (List.replicate 8 0x30))) = some [0x69] ∧
    runScript Config.default [] []
      (decScript [0x30, 0x31, 0x31, 0x30, 0x31, 0x30, 0x30, 0x31, 0x0A] (List.replicate 8 0x30)) =
        .failed ⟨.bitChar, 8, 10⟩ := by decide

/-- P3: either one-bit key, and a length above the bound. -/
theorem test_script_keygen :
    outputFile "kt" (runScript Config.default [[false]] [] (keygenScript 1)) = some [0x30] ∧
      outputFile "kt" (runScript Config.default [[true]] [] (keygenScript 1)) = some [0x31] ∧
      runScript Config.default [] [] (keygenScript 129) = .failed ⟨.invalidLength, 129, 128⟩ := by decide

/-! ## Witnesses: states and operands that meet the hypotheses of the obligations, at the bounds -/

/-- The port every command below runs on. -/
theorem reset_port : State.reset.ports[State.reset.cur]? = some ⟨.ready, [], []⟩ := by decide

/-- The selected port need not be idle, nor be port 0. -/
def other : State :=
  { State.resetOf { Config.default with nPorts := 2 } with
    ports := [⟨.halted, [], [true]⟩, ⟨.ready, b [0, 1], []⟩], cur := 1 }

theorem witness_EnctEncodesText :
    State.reset.ports[State.reset.cur]? = some ⟨.ready, [], []⟩ ∧ (∀ x ∈ ([0, 255] : Text), x ≤ 255) ∧
      ([255, 256] : Text)[1]? = some 256 ∧ 255 < 256 ∧
      ∀ (i y : Nat), i < 1 → ([255, 256] : Text)[i]? = some y → y ≤ 255 := by
  refine ⟨reset_port, by decide, by decide, by decide, fun i y hi h => ?_⟩
  obtain rfl : i = 0 := by omega
  simp at h
  omega

theorem witness_DectDecodesGroups :
    State.reset.ports[State.reset.cur]? = some ⟨.ready, [], []⟩ ∧ (b []).length % 8 = 0 ∧
      (bytes [0x69]).length % 8 = 0 ∧ (b [0, 1, 1, 0, 1, 0, 0]).length % 8 ≠ 0 ∧
      (b [0, 1, 1, 0, 1, 0, 0, 1, 0]).length % 8 ≠ 0 := by decide

theorem witness_ParsParsesBitText :
    State.reset.ports[State.reset.cur]? = some ⟨.ready, [], []⟩ ∧
      (∀ x ∈ ([0x30, 0x31] : Text), x = 0x30 ∨ x = 0x31) ∧
      ([0x31, 0x32] : Text)[1]? = some 0x32 ∧ 0x32 ≠ 0x30 ∧ 0x32 ≠ 0x31 ∧
      ∀ (i y : Nat), i < 1 → ([0x31, 0x32] : Text)[i]? = some y → y = 0x30 ∨ y = 0x31 := by
  refine ⟨reset_port, by decide, by decide, by decide, by decide, fun i y hi h => ?_⟩
  obtain rfl : i = 0 := by omega
  simp at h
  omega

theorem witness_RendRendersBits : other.ports[other.cur]? = some ⟨.ready, b [0, 1], []⟩ := by decide

theorem witness_XorvXorsEqualLengths :
    State.reset.ports[State.reset.cur]? = some ⟨.ready, [], []⟩ ∧
      (b [1, 1, 0, 0]).length = (b [1, 0, 1, 0]).length ∧ (b []).length = (b []).length ∧
      (b [0, 0, 0, 1]).length ≠ (b [1]).length := by decide

theorem witness_EncrEncryptsText :
    State.reset.ports[State.reset.cur]? = some ⟨.ready, [], []⟩ ∧
      ((∀ x ∈ ([0xFF] : Text), x ≤ 255) ∧ (bytes [0x69]).length = 8 * ([0xFF] : Text).length) ∧
      (([0x100, 0x69] : Text)[0]? = some 0x100 ∧ 255 < 0x100 ∧
        ∀ (i y : Nat), i < 0 → ([0x100, 0x69] : Text)[i]? = some y → y ≤ 255) ∧
      (∀ x ∈ ([0x69] : Text), x ≤ 255) ∧ (b [0, 1, 1, 0, 1, 0, 0]).length ≠ 8 * ([0x69] : Text).length := by
  refine ⟨reset_port, by decide, ⟨by decide, by decide, fun i y hi _ => ?_⟩, by decide, by decide⟩
  omega

theorem witness_DecrDecryptsToText :
    State.reset.ports[State.reset.cur]? = some ⟨.ready, [], []⟩ ∧
      ((bytes [0xFF]).length = (bytes [0x96]).length ∧ (bytes [0x96]).length % 8 = 0) ∧
      (b [1, 1, 0]).length ≠ (b [1, 0, 1, 0]).length ∧
      ((b [1, 1, 0, 0]).length = (b [1, 0, 1, 0]).length ∧ (b [1, 0, 1, 0]).length % 8 ≠ 0) := by decide

theorem witness_VeqlComparesLengths :
    State.reset.ports[State.reset.cur]? = some ⟨.ready, [], []⟩ ∧ (0xFFFFFFFF : Nat) = 0xFFFFFFFF ∧
      (0xFFFFFFFF : Nat) ≠ 0 := by decide

theorem witness_Vmul8TestsMultipleOfEight :
    State.reset.ports[State.reset.cur]? = some ⟨.ready, [], []⟩ ∧ 0 % 8 = 0 ∧ 0xFFFFFFF8 % 8 = 0 ∧ 7 % 8 ≠ 0 := by
  decide

/-- Both bounds of the range, and the values next to them outside it. -/
theorem witness_VklenTestsKeyLength :
    State.reset.ports[State.reset.cur]? = some ⟨.ready, [], []⟩ ∧
      (1 ≤ 1 ∧ 1 ≤ State.reset.cfg.maxKeyBits) ∧ (1 ≤ 128 ∧ 128 ≤ State.reset.cfg.maxKeyBits) ∧
      (0 < 1 ∨ State.reset.cfg.maxKeyBits < 0) ∧ (129 < 1 ∨ State.reset.cfg.maxKeyBits < 129) := by decide

theorem witness_EveryCommandCompletes : other.ports[other.cur]? = some ⟨.ready, b [0, 1], []⟩ := by decide

theorem witness_ResponsesAreLaidOutAndFit :
    Config.default.wf = true ∧ (Instr.rend (b [0, 1])).wellFormed Config.default = true ∧
      answer Config.default (.rend (b [0, 1])) = .okText [0x30, 0x31] ∧
      answer Config.default (.pars [0x30]) = .okBits [false] ∧
      answer Config.default (.vmul8 0xFFFFFFFF) = .error ⟨.malformedLength, 0xFFFFFFFF, 0⟩ := by decide

theorem witness_FailureKindsByCommand :
    answer Config.default (.encr [] [0x69]) = .error ⟨.lengthMismatch, 0, 8⟩ := by decide

theorem witness_AnswerValuesUseNoParameterExceptInVklen : (Instr.enct [0x69]).op ≠ .vklen := by decide

/-- The push of the last bit of `VKLEN 128`. -/
theorem witness_StepRunsDecodedCommand :
    let s := atLastBit Config.default (bytes [0x12, 0, 0, 0, 0x80])
    let p : Port := ⟨.ready, (bytes [0x12, 0, 0, 0, 0x80]).dropLast, []⟩
    s.moves = [.push 0 false] ∧ s.ports[0]? = some p ∧ p.mode = .ready ∧ p.tx = [] ∧
      parse s.cfg (p.rx ++ [false]) = .complete (.vklen 128) := by decide

/-- The last bit before the count of `ENCT` is known. -/
theorem witness_IncompleteFrameOnlyGrows :
    let s := atLastBit Config.default ((bytes [0x01, 0x20, 0x00]).take 23)
    let p : Port := ⟨.ready, (bytes [0x01, 0x20, 0x00]).take 22, []⟩
    s.moves = [.push 0 false] ∧ s.ports[0]? = some p ∧ p.mode = .ready ∧ p.tx = [] ∧
      parse s.cfg (p.rx ++ [false]) = .incomplete := by decide

theorem witness_PullTakesFirstBit :
    let s := { other with moves := [.pull 0] }
    s.moves = [.pull 0] ∧ s.ports[0]? = some ⟨.halted, [], [true]⟩ := by decide

/-- Each clause: a halted port, a waiting response, an empty `tx`, a port number that does not exist. -/
theorem witness_DisabledMovesAreNoSteps :
    (({ other with moves := [.push 0 true] } : State).moves = [.push 0 true] ∧
      other.ports[0]? = some ⟨.halted, [], [true]⟩) ∧
    (({ other with moves := [.pull 1] } : State).moves = [.pull 1] ∧
      other.ports[1]? = some ⟨.ready, b [0, 1], []⟩) ∧ other.ports[2]? = none := by decide

/-- Each clause: the last bit of an undefined opcode, and a halted port's push, pull and reset. -/
theorem witness_IllegalFrameHaltsUntilReset :
    (let s := atLastBit Config.default (bytes [0x13])
     let p : Port := ⟨.ready, (bytes [0x13]).dropLast, []⟩
     s.moves = [.push 0 true] ∧ s.ports[0]? = some p ∧ p.mode = .ready ∧ p.tx = [] ∧
       parse s.cfg (p.rx ++ [true]) = .illegal 1 0x13) ∧
    other.ports[0]? = some ⟨.halted, [], [true]⟩ ∧
    ∃ t, step { other with moves := [.pull 0] } = .next t ∧ t.ports[0]? = some ⟨.halted, [], []⟩ :=
  ⟨by decide, by decide, _, rfl, by decide⟩

theorem witness_ResetReadiesEveryPort :
    ({ other with moves := [.reset] } : State).moves = [.reset] ∧ other.ports[0]? = some ⟨.halted, [], [true]⟩ ∧
      ∃ t, step { other with moves := [.reset] } = .next t ∧ t.ports[0]? = some ⟨.ready, [], []⟩ :=
  ⟨by decide, by decide, _, rfl, by decide⟩

theorem witness_ResetStateIsIdle : 1 < ({ Config.default with nPorts := 2 } : Config).nPorts := by decide

theorem witness_BlockWaitsForHost : State.reset.moves = [] := by decide

/-- Both ways: into the halt, and out of it. -/
theorem witness_ModeChangesOnlyByIllegalFrameOrReset :
    (∃ t, step (atLastBit Config.default (bytes [0x05])) = .next t ∧
      (t.ports[0]?).map (·.mode) = some .halted) ∧
    ∃ t, step { other with moves := [.reset] } = .next t ∧ (t.ports[0]?).map (·.mode) = some .ready :=
  ⟨⟨_, rfl, by decide⟩, _, rfl, by decide⟩

theorem witness_PortsAreDisjoint :
    let m : HostMove := .push 1 true
    let s₁ := { other with moves := [m, .pull 0] }
    let s₂ := { other with ports := [⟨.ready, [], []⟩, ⟨.ready, b [0, 1], []⟩], moves := [m] }
    m.isOn 1 = true ∧ s₁.moves = [m, .pull 0] ∧ s₂.moves = [m] ∧ s₁.cfg = s₂.cfg ∧
      s₁.ports[1]? = s₂.ports[1]? ∧ s₁.ports[0]? ≠ s₂.ports[0]? := by decide

theorem witness_StepKeepsConfiguration : ∃ t, step { other with moves := [.pull 0] } = .next t := ⟨_, rfl⟩

/-- A legal frame and an illegal one. -/
theorem witness_RequestAnsweredInSameStep :
    (let s := atLastBit Config.default (bytes [0x04, 0, 0])
     s.moves = [.push 0 false] ∧
       s.ports[0]? = some ⟨.ready, (bytes [0x04, 0, 0]).dropLast, []⟩ ∧
       parse s.cfg ((bytes [0x04, 0, 0]).dropLast ++ [false]) ≠ .incomplete) ∧
    parse Config.default ((bytes [0]).dropLast ++ [false]) ≠ .incomplete := by decide

theorem witness_PlacedResponsesHaveListedStatus :
    ∃ t, step (atLastBit Config.default (bytes [0x11, 0, 0, 0, 0x0C])) = .next t ∧
      (t.ports[0]?).map (fun q => q.tx.isEmpty) = some false := ⟨_, rfl, by decide⟩

/-- Port 1 of two, the other one halted. -/
theorem witness_TransactionAnswersAndLeavesNoTrace :
    let s := { other with
      ports := [⟨.halted, [], [true]⟩, ⟨.ready, [], []⟩], moves := transactionMoves other.cfg 1 (.rend [true]) }
    s.cfg.wf = true ∧ (Instr.rend [true]).wellFormed s.cfg = true ∧ s.ports[1]? = some ⟨.ready, [], []⟩ ∧
      s.moves = transactionMoves s.cfg 1 (.rend [true]) ++ [] := by decide

theorem witness_ResponsesLeaveInRequestOrder :
    let is : List Instr := [.vmul8 12, .rend [true]]
    let s := { State.reset with moves := is.flatMap (transactionMoves State.reset.cfg 0) }
    s.cfg.wf = true ∧ (∀ i ∈ is, i.wellFormed s.cfg = true) ∧ s.ports[0]? = some ⟨.ready, [], []⟩ ∧
      s.moves = is.flatMap (transactionMoves s.cfg 0) ++ [] :=
  ⟨by decide, by decide, by decide, (List.append_nil _).symm⟩

/-- An illegal frame (W1) and, for the mode, a legal one (V30). -/
theorem witness_BitStepsRefineTransact :
    let frame := bytes [0x00]
    let response := bytes [0x7F, 0, 0, 0, 0x01, 0, 0, 0, 0]
    let s := { State.reset with moves := pushFrame 0 frame ++ pullBits 0 response.length }
    s.ports[0]? = some ⟨.ready, [], []⟩ ∧
      (∀ n, n < frame.length → parse s.cfg (frame.take n) = .incomplete) ∧
      transact s.cfg frame = some (.halted, response) ∧
      s.moves = pushFrame 0 frame ++ pullBits 0 response.length ++ [] ∧
      transact s.cfg (bytes [0x04, 0, 0]) = some (.ready, bytes [0, 0, 0]) := by
  refine ⟨by decide, by decide, by decide, rfl, by decide⟩

/-- A block with a halted port and a half-received frame. -/
theorem witness_ResetThenTransactionFromAnyState :
    let s := { other with moves := .reset :: transactionMoves other.cfg 0 (.vklen 8) }
    s.cfg.wf = true ∧ (Instr.vklen 8).wellFormed s.cfg = true ∧ 0 < s.ports.length ∧
      s.moves = .reset :: transactionMoves s.cfg 0 (.vklen 8) ++ [] := by decide

/-- The moves of two ports and a reset, mixed. -/
theorem witness_InterleavingDoesNotMatter :
    ∃ t, steps 5 { other with moves := [.push 1 true, .pull 0, .reset, .push 0 false, .push 1 true] } = .next t :=
  ⟨_, rfl⟩

theorem witness_UndefinedOpcodeHaltsAtEighthBit :
    let s := { State.reset with moves := pushFrame 0 (bitsOf 8 0xFF) }
    s.ports[0]? = some ⟨.ready, [], []⟩ ∧ 0xFF < 256 ∧ 0xFF ∉ definedOpcodes ∧ 0 ∉ definedOpcodes ∧
      s.moves = pushFrame 0 (bitsOf 8 0xFF) ++ [] := by decide

/-- The least count that is too long and the greatest that is not, in both commands. -/
theorem witness_TooLongTextHaltsAtCount :
    let s := { State.reset with moves := pushFrame 0 (bitsOf 8 0x01 ++ bitsOf 16 8192) }
    let s' := { State.reset with
      moves := pushFrame 0 ((bitsOf 8 0x09 ++ bitsOf 16 1 ++ [true]) ++ bitsOf 16 65535) }
    s.ports[0]? = some ⟨.ready, [], []⟩ ∧ 8192 < 2 ^ s.cfg.lenW ∧ 8 * 8192 > s.cfg.capBits ∧
      ¬ 8 * 8191 > s.cfg.capBits ∧
      s.moves = pushFrame 0 (bitsOf 8 0x01 ++ bitsOf s.cfg.lenW 8192) ++ [] ∧
      ([true] : BitString).length ≤ s'.cfg.capBits ∧ 65535 < 2 ^ s'.cfg.lenW ∧ 8 * 65535 > s'.cfg.capBits ∧
      s'.moves = pushFrame 0 ((bitsOf 8 0x09 ++ bitsOf s'.cfg.lenW 1 ++ [true]) ++ bitsOf s'.cfg.lenW 65535) ++ [] := by
  decide

/-- Bounds of an instance of the invariant: a half-received frame on one port, a waiting failure on the other. -/
theorem witness_StepKeepsBlockInvariant :
    State.Inv { other with
      ports := [⟨.halted, [], bytes [0x7F, 0, 0, 0, 1, 0, 0, 0, 5]⟩, ⟨.ready, b [0, 1], []⟩]
      moves := [.push 1 false] } ∧
    ∃ t, step { other with moves := [.push 1 false] } = .next t := by
  refine ⟨⟨by decide, by decide, fun p hp => ?_⟩, _, rfl⟩
  have h : 72 ≤ longestFrame { Config.default with nPorts := 2 } := le_max_left _ _
  simp only [List.mem_cons, List.not_mem_nil, or_false] at hp
  rcases hp with rfl | rfl
  · exact ⟨by decide, by decide, by decide, lt_of_lt_of_le (by decide) h, le_trans (by decide) h⟩
  · exact ⟨by decide, by decide, by decide, lt_of_lt_of_le (by decide) h, le_trans (by decide) h⟩

theorem witness_ResetStateHasInvariant : small.wf = true ∧ ({ Config.default with nPorts := 2 } : Config).wf = true := by
  decide

theorem witness_DecodeEncodeRoundTrip :
    (Instr.encr (b [1]) [0xFFFF]).wellFormed Config.default = true ∧
      (Instr.veql 0xFFFFFFFF 0).wellFormed Config.default = true ∧ (Instr.pars []).wellFormed small = true := by
  decide

theorem witness_ParseWaitsUntilLastBit :
    (Instr.xorv (b [0]) (b [1])).wellFormed Config.default = true ∧
      41 < (encode Config.default (.xorv (b [0]) (b [1]))).length := by decide

theorem witness_DecodedFrameIsCanonical :
    decode Config.default (bytes [0x04, 0, 0, 0x05]) = some (.rend [], bytes [0x05]) := by decide

theorem witness_FrameLengthBounds :
    tiny.wf = true ∧ (Instr.vmul8 0).wellFormed tiny = true ∧
      longestFrame { lenW := 1, cpW := 8, maxKeyBits := 1, nPorts := 1 } = 72 ∧
      (List.replicate 15 0x30).length = tiny.capBits ∧ (∀ x ∈ List.replicate 15 0x30, x < 2 ^ tiny.cpW) ∧
      (List.replicate 15 true).length = tiny.capBits := by decide

theorem witness_BitsAndNumbersAreInverse : 7 < 8 ∧ 0xFF < 2 ^ 8 := by decide

theorem witness_CodecLengthLaws :
    encodeText [0xFF] = .ok (bytes [0xFF]) ∧ (b []).length % 8 = 0 ∧ parseBitString [0x31] = .ok (b [1]) :=
  ⟨rfl, rfl, rfl⟩

theorem witness_EncodeDecodeTextInverse : (∀ x ∈ ([0, 255] : Text), x ≤ 255) ∧ (bytes [0, 0xFF]).length % 8 = 0 := by
  decide

theorem witness_RenderParseInverse : ∀ x ∈ ([0x30, 0x31] : Text), x = 0x30 ∨ x = 0x31 := by decide

theorem witness_TwoTextFormsDiffer : ∀ x ∈ ([0x30, 0x31] : Text), x = 0x30 ∨ x = 0x31 := by decide

theorem witness_ApplyIsInvolution : (b [1, 1, 0, 0]).length = (b [1, 0, 1, 0]).length := by decide

theorem witness_ApplyLengthAndMismatch :
    apply (b [1, 1, 0, 0]) (b [1, 0, 1, 0]) = .ok (b [0, 1, 1, 0]) ∧
      apply (b [0, 0, 0, 1]) (b [1]) = .error ⟨.lengthMismatch, 4, 1⟩ := ⟨rfl, rfl⟩

theorem witness_XorLaws :
    (b [1, 0, 1, 1, 0]).length = (b [0, 0, 0, 0, 0]).length ∧ (b [1, 1, 1, 1, 1]).length = (b [0, 0, 0, 0, 0]).length ∧
      apply (b [1, 0, 1, 1, 0]) (b [1, 1, 1, 1, 1]) = .ok (b [0, 1, 0, 0, 1]) := ⟨rfl, rfl, rfl⟩

theorem witness_DecryptUndoesEncrypt :
    (∀ x ∈ ([0x48, 0xFF] : Text), x ≤ 255) ∧ (bytes [0xF0, 0xAA]).length = 8 * ([0x48, 0xFF] : Text).length := by
  decide

/-- A run with nothing to send; a halted port; a port with an unfinished frame and no more moves. -/
theorem witness_WholeTransactionsEndWell :
    (Config.default.wf = true ∧ (Instr.vmul8 12).wellFormed Config.default = true ∧
      ({ State.reset with moves := transactionMoves State.reset.cfg 0 (.vmul8 12) } : State).ports[0]? =
        some ⟨.ready, [], []⟩) ∧
    other.ports[0]? = some ⟨.halted, [], [true]⟩ ∧
    (other.ports[1]? = some ⟨.ready, b [0, 1], []⟩ ∧ (∀ m ∈ other.moves, m.isOn 1 = false) ∧ b [0, 1] ≠ []) := by
  decide

theorem witness_ResponseFramesReadBack :
    Config.default.wf = true ∧ (Instr.veql 1 0).wellFormed Config.default = true ∧
      71 < (encodeResponse Config.default (answer Config.default (.veql 1 0))).length ∧
      2 < 2 ^ 32 ∧ 0xFFFFFFFF < 2 ^ 32 := by decide

/-- The files of P1. -/
theorem witness_EncThenDecScriptsGivePlaintextBack :
    Config.default.wf = true ∧
      (∀ x ∈ ([0x30, 0x31, 0x31, 0x30, 0x31, 0x30, 0x30, 0x31] : Text), x = 0x30 ∨ x = 0x31) ∧
      (∀ x ∈ ([0x69] : Text), x ≤ 255) ∧
      ([0x30, 0x31, 0x31, 0x30, 0x31, 0x30, 0x30, 0x31] : Text).length = 8 * ([0x69] : Text).length ∧
      ([0x30, 0x31, 0x31, 0x30, 0x31, 0x30, 0x30, 0x31] : Text).length ≤ Config.default.capBits := by decide

/-- The bounds of P3. -/
theorem witness_KeygenScriptWritesDrawnKey :
    small.wf = true ∧ (b [1]).length = 1 ∧ (1 ≤ 1 ∧ 1 ≤ small.maxKeyBits) ∧ (1 ≤ 16 ∧ 16 ≤ small.maxKeyBits) ∧
      (0 < 1 ∨ small.maxKeyBits < 0) ∧ (17 < 1 ∨ small.maxKeyBits < 17) ∧ 17 < 2 ^ 32 := by decide

/-- P7's first line. -/
theorem witness_ScriptStopsAtFirstFailure :
    runScript Config.default [] [] [.command (some "k") .pars [.text [0x30, 0x0A]]] =
      .failed ⟨.bitChar, 1, 10⟩ := by decide

end Sys2Proof.Tests
end

section
/-! The statements of the scope (spec/00_scope.md): the conversion primitives of R14, and which answers depend on the
parameters of R8. -/

namespace Sys2Proof.Proofs
open Sys2Proof Sys2Proof.Machine

/-- The closed form of `uint` in R14. The first bit is the term of position 0; the later positions are those of the
tail, moved by one, with their weights unchanged. -/
theorem uint_eq_sum (b : BitString) :
    uint b = ∑ p ∈ Finset.range b.length, (b.getD p false).toNat * 2 ^ (b.length - 1 - p) := by
  induction b with
  | nil => rfl
  | cons x b ih =>
    rw [List.length_cons, Finset.sum_range_succ', uint, ih, Nat.add_comm]
    simp only [List.getD_cons_succ, List.getD_cons_zero, Nat.add_sub_cancel, Nat.sub_zero, Nat.sub_sub,
      Nat.add_comm 1]

/-- Settles O45, part by part from the laws of `bitsOf` and `uint` and the sum formula. -/
theorem bitsAndNumbersAreInverse : Obligations.BitsAndNumbersAreInverse :=
  ⟨fun _ _ _ => getElem?_bitsOf, length_bitsOf, uint_eq_sum, fun _ _ => uint_bitsOf, bitsOf_uint⟩

/-- Settles O14, by cases on the command: only the arm of `VKLEN` hands the configuration on (R124). -/
theorem answerValuesUseNoParameterExceptInVklen : Obligations.AnswerValuesUseNoParameterExceptInVklen := by
  intro c d i hop
  cases i with
  | vklen n => exact absurd rfl hop
  | _ => rfl

end Sys2Proof.Proofs
end

section
/-! The statements of the state (spec/10_state.md): single steps, the invariant of the block, and whole transactions.
The parser's laws that they need come first: once a frame is decided, further bits only lengthen what is left over;
a command's frame is decided at its last bit and not before; and an undecided frame is shorter than the longest one. -/

namespace Sys2Proof.Proofs
open Sys2Proof Sys2Proof.Machine

/-! ## Frames with further bits behind them -/

/-- The answer of a scan when the bits `x` follow. -/
def withRest (x : BitString) : Scan → Scan
  | .incomplete n => .incomplete n
  | .complete i r => .complete i (r ++ x)
  | .illegal n v r => .illegal n v (r ++ x)

/-- A field reader that has found its value finds the same one when more bits follow, and leaves those too. -/
def ReadsPrefix {α : Type} (g : BitString → Got α) : Prop :=
  ∀ b v r x, g b = .got v r → g (b ++ x) = .got v (r ++ x)

/-- A scanner that is not waiting answers the same when more bits follow, and leaves those too (R67). -/
def ScansPrefix (f : BitString → Scan) : Prop :=
  ∀ b x, (∀ n, f b ≠ .incomplete n) → f (b ++ x) = withRest x (f b)

theorem readsPrefix_readNumber (w : Nat) : ReadsPrefix (readNumber w) := by
  intro b v r x h
  obtain ⟨rfl, hv⟩ := readNumber_got h
  rw [List.append_assoc, readNumber_append hv]

theorem readsPrefix_readBits (c : Config) : ReadsPrefix (readBits c) := by
  intro b v r x h
  obtain ⟨rfl, hv⟩ := readBits_got h
  rw [List.append_assoc, readBits_append hv]

theorem readsPrefix_readCodes (c : Config) (n : Nat) : ReadsPrefix (readCodes c n) := by
  intro b v r x h
  obtain ⟨rfl, rfl, hv⟩ := readCodes_got h
  rw [List.append_assoc, readCodes_append hv]

theorem readsPrefix_readText (c : Config) : ReadsPrefix (readText c) := by
  intro b v r x h
  obtain ⟨rfl, hv⟩ := readText_got h
  rw [List.append_assoc, readText_append hv]

theorem scansPrefix_complete (i : Instr) : ScansPrefix (.complete i) := fun _ _ _ => rfl

theorem scansPrefix_illegal (n v : Nat) : ScansPrefix (.illegal n v) := fun _ _ _ => rfl

/-- A field and then the rest of the frame. -/
theorem ReadsPrefix.scan {α : Type} {g : BitString → Got α} {k : α → BitString → Scan} (hg : ReadsPrefix g)
    (hk : ∀ v, ScansPrefix (k v)) : ScansPrefix fun b => (g b).scan k := by
  intro b x h
  cases hb : g b with
  | short n => exact absurd (by simp [hb, Got.scan]) (h n)
  | got v r =>
    simp only [hb, Got.scan] at h
    simp only [hg b v r x hb, hb, Got.scan]
    exact hk v r x h

theorem scansPrefix_encodableText (c : Config) {k : Text → BitString → Scan} (hk : ∀ t, ScansPrefix (k t)) :
    ScansPrefix fun b => scanEncodableText c b k :=
  (readsPrefix_readNumber c.lenW).scan fun n => by
    by_cases h : 8 * n > c.capBits
    · simpa only [if_pos h] using scansPrefix_illegal reasonTextTooLong n
    · simpa only [if_neg h] using (readsPrefix_readCodes c n).scan hk

theorem scansPrefix_operands (c : Config) (op : Op) : ScansPrefix (scanOperands c op) := by
  have bits := readsPrefix_readBits c
  have num : ReadsPrefix readNum := readsPrefix_readNumber numW
  cases op with
  | enct => exact scansPrefix_encodableText c fun t => scansPrefix_complete (.enct t)
  | dect => exact bits.scan fun a => scansPrefix_complete (.dect a)
  | pars => exact (readsPrefix_readText c).scan fun t => scansPrefix_complete (.pars t)
  | rend => exact bits.scan fun a => scansPrefix_complete (.rend a)
  | xorv => exact bits.scan fun a => bits.scan fun d => scansPrefix_complete (.xorv a d)
  | encr => exact bits.scan fun a => scansPrefix_encodableText c fun t => scansPrefix_complete (.encr a t)
  | decr => exact bits.scan fun a => bits.scan fun d => scansPrefix_complete (.decr a d)
  | veql => exact num.scan fun n => num.scan fun m => scansPrefix_complete (.veql n m)
  | vmul8 => exact num.scan fun n => scansPrefix_complete (.vmul8 n)
  | vklen => exact num.scan fun n => scansPrefix_complete (.vklen n)

theorem scansPrefix_scan (c : Config) : ScansPrefix (scan c) :=
  (readsPrefix_readNumber 8).scan fun opc => by
    cases Op.ofCode opc with
    | none => exact scansPrefix_illegal reasonUndefinedOpcode opc
    | some op => exact scansPrefix_operands c op

/-! ## The frame of a command -/

/-- The operands of a well-formed command are read back, and what follows them is left (R60 to R63). -/
theorem scanOperands_encodeOperands {c : Config} {i : Instr} (h : i.wellFormed c = true) (r : BitString) :
    scanOperands c i.op (encodeOperands c i ++ r) = .complete i r := by
  simp only [Instr.wellFormed, Bool.and_eq_true] at h
  obtain ⟨hf, hl⟩ := h
  cases i with
  | enct t => exact scanEncodableText_append hf hl r _
  | dect a | rend a => simp only [Instr.op, encodeOperands, scanOperands, readBits_append hf, Got.scan]
  | pars t => simp only [Instr.op, encodeOperands, scanOperands, readText_append hf, Got.scan]
  | xorv a d | decr a d =>
    obtain ⟨ha, hd⟩ := (Bool.and_eq_true _ _).mp hf
    simp only [Instr.op, encodeOperands, scanOperands, List.append_assoc, readBits_append ha, readBits_append hd,
      Got.scan]
  | encr a t =>
    obtain ⟨ha, ht⟩ := (Bool.and_eq_true _ _).mp hf
    simp only [Instr.op, encodeOperands, scanOperands, List.append_assoc, readBits_append ha,
      scanEncodableText_append ht hl, Got.scan]
  | veql n m =>
    obtain ⟨hn, hm⟩ := (Bool.and_eq_true _ _).mp hf
    simp only [Instr.op, encodeOperands, scanOperands, List.append_assoc, readNum_append (of_decide_eq_true hn),
      readNum_append (of_decide_eq_true hm), Got.scan]
  | vmul8 n | vklen n =>
    simp only [Instr.op, encodeOperands, scanOperands, readNum_append (of_decide_eq_true hf), Got.scan]

theorem scan_encode {c : Config} {i : Instr} (h : i.wellFormed c = true) (r : BitString) :
    scan c (encode c i ++ r) = .complete i r := by
  rw [encode, List.append_assoc, scan_opcode, scanOperands_encodeOperands h]

theorem parse_encode {c : Config} {i : Instr} (h : i.wellFormed c = true) : parse c (encode c i) = .complete i :=
  parse_complete_iff.mpr ⟨[], by simpa using scan_encode h []⟩

/-- A command's frame is undecided before its last bit (R67): were an initial part decided, the missing bits would be
left over after the whole frame, and nothing is. -/
theorem parse_take_encode {c : Config} {i : Instr} (h : i.wellFormed c = true) {n : Nat}
    (hn : n < (encode c i).length) : parse c ((encode c i).take n) = .incomplete := by
  by_contra hne
  have hwait : ∀ m, scan c ((encode c i).take n) ≠ .incomplete m := fun m hm => hne (parse_of_scan_incomplete hm)
  have hmore := scansPrefix_scan c _ ((encode c i).drop n) hwait
  have hwhole : scan c (encode c i) = .complete i [] := by simpa using scan_encode h []
  have hrest : (encode c i).drop n ≠ [] := by simpa using hn
  rw [List.take_append_drop, hwhole] at hmore
  cases hs : scan c ((encode c i).take n) with
  | incomplete m => exact hwait m hs
  | complete j r => simp [hs, withRest, hrest] at hmore
  | illegal m v r => simp [hs, withRest] at hmore

/-! ## What a decided and an undecided frame say -/

theorem got_scan_eq_complete {α : Type} {g : Got α} {k : α → BitString → Scan} {i : Instr} {r : BitString}
    (h : g.scan k = .complete i r) : ∃ v r', g = .got v r' ∧ k v r' = .complete i r := by
  cases g with
  | short n => cases h
  | got v r' => exact ⟨v, r', rfl, h⟩

theorem got_scan_eq_incomplete {α : Type} {g : Got α} {k : α → BitString → Scan} {n : Nat}
    (h : g.scan k = .incomplete n) : g = .short n ∨ ∃ v r, g = .got v r ∧ k v r = .incomplete n := by
  cases g with
  | short m => cases h; exact .inl rfl
  | got v r => exact .inr ⟨v, r, rfl, h⟩

/-- The text of `ENCT` and `ENCR`, once taken, fits its field and is not too long to encode. -/
theorem scanEncodableText_eq_complete {c : Config} {b r : BitString} {k : Text → BitString → Scan} {i : Instr}
    (h : scanEncodableText c b k = .complete i r) :
    ∃ t r', textFits c t = true ∧ encodable c t.length = true ∧ k t r' = .complete i r := by
  obtain ⟨n, r₁, hn, h⟩ := got_scan_eq_complete h
  split at h
  · cases h
  · next hle =>
    obtain ⟨t, r', ht, hk⟩ := got_scan_eq_complete h
    obtain ⟨-, rfl, hx⟩ := readCodes_got ht
    exact ⟨t, r', textFits_iff.mpr ⟨(readNumber_got hn).2, hx⟩, by simpa [encodable] using hle, hk⟩

/-- Only well-formed commands come out of the parser (R62, R70). -/
theorem wellFormed_of_parse {c : Config} {b : BitString} {i : Instr} (h : parse c b = .complete i) :
    i.wellFormed c = true := by
  obtain ⟨r, h⟩ := parse_complete_iff.mp h
  rcases scan_cases c b with ⟨-, hs⟩ | ⟨n, r', -, -, -, hs⟩ | ⟨op, r', -, hs⟩ <;> rw [hs] at h
  · cases h
  · cases h
  · cases op with
    | enct =>
      obtain ⟨t, _, hf, he, h⟩ := scanEncodableText_eq_complete h
      cases h
      simp [Instr.wellFormed, Instr.fits, Instr.legal, hf, he]
    | dect | rend =>
      obtain ⟨a, _, ha, h⟩ := got_scan_eq_complete h
      cases h
      simp [Instr.wellFormed, Instr.fits, Instr.legal, (readBits_got ha).2]
    | pars =>
      obtain ⟨t, _, ht, h⟩ := got_scan_eq_complete h
      cases h
      simp [Instr.wellFormed, Instr.fits, Instr.legal, (readText_got ht).2]
    | xorv | decr =>
      obtain ⟨a, _, ha, h⟩ := got_scan_eq_complete h
      obtain ⟨d, _, hd, h⟩ := got_scan_eq_complete h
      cases h
      simp [Instr.wellFormed, Instr.fits, Instr.legal, (readBits_got ha).2, (readBits_got hd).2]
    | encr =>
      obtain ⟨a, _, ha, h⟩ := got_scan_eq_complete h
      obtain ⟨t, _, hf, he, h⟩ := scanEncodableText_eq_complete h
      cases h
      simp [Instr.wellFormed, Instr.fits, Instr.legal, (readBits_got ha).2, hf, he]
    | veql =>
      obtain ⟨n, _, hn, h⟩ := got_scan_eq_complete h
      obtain ⟨m, _, hm, h⟩ := got_scan_eq_complete h
      cases h
      simp [Instr.wellFormed, Instr.fits, Instr.legal, numFits, (readNum_got hn).2, (readNum_got hm).2]
    | vmul8 | vklen =>
      obtain ⟨n, _, hn, h⟩ := got_scan_eq_complete h
      cases h
      simp [Instr.wellFormed, Instr.fits, Instr.legal, numFits, (readNum_got hn).2]

/-! ## Bounds on the frames -/

/-- Between the parameters, by R9: a length field is never longer than the payload it can announce, and a Code has at
least eight bits. -/
theorem capBits_bounds_of_wf {c : Config} (h : c.wf = true) :
    c.lenW ≤ c.capBits ∧ 8 * c.capBits ≤ c.capBits * c.cpW ∧ 8 * (c.capEnc * c.cpW) ≤ c.capBits * c.cpW := by
  simp only [Config.wf, Bool.and_eq_true, decide_eq_true_eq] at h
  obtain ⟨⟨⟨⟨⟨⟨_, _⟩, hcp⟩, _⟩, _⟩, _⟩, _⟩ := h
  refine ⟨le_capBits_of_lt Nat.lt_two_pow_self, ?_, ?_⟩
  · rw [Nat.mul_comm]
    exact Nat.mul_le_mul_left _ hcp
  · rw [← Nat.mul_assoc]
    exact Nat.mul_le_mul_right _ (Nat.mul_div_le _ _)

/-- The longest frame has room for the opcode and the longest operand fields of every format (R61, R68): two numbers,
a text, two BitStrings, and a BitString with a text to encode. -/
theorem formats_le_longestFrame {c : Config} (h : c.wf = true) :
    72 ≤ longestFrame c ∧ 8 + (c.lenW + c.capBits * c.cpW) ≤ longestFrame c ∧
      8 + 2 * (c.lenW + c.capBits) ≤ longestFrame c ∧
      8 + (c.lenW + c.capBits) + (c.lenW + c.capEnc * c.cpW) ≤ longestFrame c := by
  obtain ⟨hlen, hcap, henc⟩ := capBits_bounds_of_wf h
  unfold longestFrame
  omega

theorem length_lt_of_takeBits_short {n k : Nat} {b : BitString} (h : takeBits n b = .short k) : b.length < n := by
  by_contra hn
  simp [takeBits, hn] at h

theorem length_lt_of_map_short {α : Type} {f : BitString → α} {n k : Nat} {b : BitString}
    (h : (takeBits n b).map f = .short k) : b.length < n := by
  cases ht : takeBits n b with
  | short j => exact length_lt_of_takeBits_short ht
  | got v r => rw [ht] at h; cases h

/-- A field behind a length or count that waits: the length is still missing, or the field behind it waits. -/
theorem readLen_andThen_eq_short {α : Type} {c : Config} {b : BitString} {f : Nat → BitString → Got α} {k : Nat}
    (h : (readLen c b).andThen f = .short k) :
    b.length < c.lenW ∨ ∃ n r, n ≤ c.capBits ∧ b.length = c.lenW + r.length ∧ f n r = .short k := by
  cases hn : readLen c b with
  | short j => exact .inl (length_lt_of_map_short hn)
  | got n r =>
    rw [hn] at h
    obtain ⟨rfl, hlt⟩ := readNumber_got hn
    exact .inr ⟨n, r, le_capBits_of_lt hlt, by simp, h⟩

theorem length_lt_of_readBits_short {c : Config} {k : Nat} {b : BitString} (h : readBits c b = .short k) :
    b.length < c.lenW + c.capBits := by
  rcases readLen_andThen_eq_short h with hb | ⟨n, r, hn, hb, h⟩
  · omega
  · have := length_lt_of_takeBits_short h
    omega

theorem length_lt_of_readText_short {c : Config} {k : Nat} {b : BitString} (h : readText c b = .short k) :
    b.length < c.lenW + c.capBits * c.cpW := by
  rcases readLen_andThen_eq_short h with hb | ⟨n, r, hn, hb, h⟩
  · omega
  · have := length_lt_of_map_short h
    have := Nat.mul_le_mul_right c.cpW hn
    omega

theorem length_le_of_readBits_got {c : Config} {a b r : BitString} (h : readBits c b = .got a r) :
    b.length ≤ c.lenW + c.capBits + r.length := by
  obtain ⟨rfl, ha⟩ := readBits_got h
  simp only [bitsFit, decide_eq_true_eq] at ha
  simp only [List.length_append, length_writeBits]
  omega

/-- A waiting text to encode is shorter than one of `CAP_ENC` characters. -/
theorem length_lt_of_scanEncodableText {c : Config} {b : BitString} {f : Text → Instr} {k : Nat}
    (h : scanEncodableText c b (fun t => .complete (f t)) = .incomplete k) :
    b.length < c.lenW + c.capEnc * c.cpW := by
  rcases got_scan_eq_incomplete h with hcount | ⟨n, r, hn, hrest⟩
  · exact Nat.lt_add_right _ (length_lt_of_map_short hcount)
  · obtain ⟨rfl, -⟩ := readNumber_got hn
    split at hrest
    · cases hrest
    · next hle =>
      rcases got_scan_eq_incomplete hrest with hcodes | ⟨t, r', -, hdone⟩
      · have hr := length_lt_of_map_short hcodes
        have hmul : n * c.cpW ≤ c.capEnc * c.cpW :=
          Nat.mul_le_mul_right _ ((Nat.le_div_iff_mul_le (by decide)).mpr (by omega))
        simp only [List.length_append, length_bitsOf]
        omega
      · cases hdone

theorem length_lt_of_readBits_scan {c : Config} {b : BitString} {f : BitString → Instr} {k : Nat}
    (h : (readBits c b).scan (fun a => .complete (f a)) = .incomplete k) : b.length < c.lenW + c.capBits := by
  rcases got_scan_eq_incomplete h with h | ⟨_, _, _, h⟩
  · exact length_lt_of_readBits_short h
  · cases h

theorem length_lt_of_readNum_scan {b : BitString} {f : Nat → Instr} {k : Nat}
    (h : (readNum b).scan (fun n => .complete (f n)) = .incomplete k) : b.length < 32 := by
  rcases got_scan_eq_incomplete h with h | ⟨_, _, _, h⟩
  · exact length_lt_of_map_short h
  · cases h

/-- The operand fields of a waiting frame leave room for an opcode in the longest frame. -/
theorem length_lt_of_scanOperands {c : Config} (hc : c.wf = true) {op : Op} {b : BitString} {k : Nat}
    (h : scanOperands c op b = .incomplete k) : 8 + b.length < longestFrame c := by
  obtain ⟨hnum, htext, hbits, henc⟩ := formats_le_longestFrame hc
  cases op with
  | enct =>
    have := length_lt_of_scanEncodableText h
    omega
  | dect | rend =>
    have := length_lt_of_readBits_scan h
    omega
  | pars =>
    rcases got_scan_eq_incomplete h with h | ⟨_, _, _, h⟩
    · have := length_lt_of_readText_short h
      omega
    · cases h
  | xorv | decr =>
    rcases got_scan_eq_incomplete h with h | ⟨_, _, ha, h⟩
    · have := length_lt_of_readBits_short h
      omega
    · have := length_le_of_readBits_got ha
      have := length_lt_of_readBits_scan h
      omega
  | encr =>
    rcases got_scan_eq_incomplete h with h | ⟨_, _, ha, h⟩
    · have := length_lt_of_readBits_short h
      omega
    · have := length_le_of_readBits_got ha
      have := length_lt_of_scanEncodableText h
      omega
  | veql =>
    rcases got_scan_eq_incomplete h with hnum | ⟨n, r, hn, hrest⟩
    · have : b.length < 32 := length_lt_of_map_short hnum
      omega
    · obtain ⟨rfl, -⟩ := readNum_got hn
      have := length_lt_of_readNum_scan hrest
      simp only [List.length_append, length_writeNum]
      omega
  | vmul8 | vklen =>
    have := length_lt_of_readNum_scan h
    omega

/-- A port can be waiting for more bits only below the longest frame (R67, R68). -/
theorem length_lt_of_parse_incomplete {c : Config} (hc : c.wf = true) {b : BitString}
    (h : parse c b = .incomplete) : b.length < longestFrame c := by
  obtain ⟨k, h⟩ := parse_incomplete_iff.mp h
  rcases scan_cases c b with ⟨hb, -⟩ | ⟨_, _, -, -, -, hs⟩ | ⟨op, r, rfl, hs⟩
  · have := (formats_le_longestFrame hc).1
    omega
  · rw [hs] at h
    cases h
  · rw [hs] at h
    simpa using length_lt_of_scanOperands hc h

/-- What the result of a success may be: a BitString or a Text of at most `CAP_BITS` elements. -/
def resultFits (c : Config) : Response → Prop
  | .okBits r => r.length ≤ c.capBits
  | .okText u => u.length ≤ c.capBits
  | .okNone => True
  | .error _ => True

theorem resultFits_ofBits {c : Config} {x : Result BitString} (h : ∀ r, x = .ok r → r.length ≤ c.capBits) :
    resultFits c (.ofBits x) := by
  cases x with
  | ok r => exact h r rfl
  | error f => trivial

theorem resultFits_ofText {c : Config} {x : Result Text} (h : ∀ u, x = .ok u → u.length ≤ c.capBits) :
    resultFits c (.ofText x) := by
  cases x with
  | ok u => exact h u rfl
  | error f => trivial

theorem resultFits_ofUnit {c : Config} (x : Result Unit) : resultFits c (.ofUnit x) := by
  cases x <;> trivial

theorem result_andThen_eq_ok {α β : Type} {x : Result α} {f : α → Result β} {y : β}
    (h : Result.andThen x f = .ok y) :
    ∃ v, x = .ok v ∧ f v = .ok y := by
  cases x with
  | ok v => exact ⟨v, rfl, h⟩
  | error e => cases h

theorem length_le_of_decodeText {b : BitString} {u : Text} (h : decodeText b = .ok u) : u.length ≤ b.length := by
  obtain ⟨_, -, h⟩ := result_andThen_eq_ok h
  cases h
  rw [length_groupValues]
  exact Nat.div_le_self _ _

theorem length_le_of_apply {k x r : BitString} (h : apply k x = .ok r) : r.length ≤ k.length := by
  obtain ⟨_, -, h⟩ := result_andThen_eq_ok h
  cases h
  rw [List.length_zipWith]
  exact min_le_left _ _

/-- A well-formed command's result fits the field that carries it: it is no longer than the key where there is one,
and otherwise no longer than the operand, or eight bits for each character of a text that is not too long (R70). -/
theorem resultFits_answer {c : Config} {i : Instr} (h : i.wellFormed c = true) : resultFits c (answer c i) := by
  simp only [Instr.wellFormed, Bool.and_eq_true] at h
  obtain ⟨hf, hl⟩ := h
  cases i with
  | enct t =>
    refine resultFits_ofBits fun r hr => ?_
    obtain ⟨-, rfl⟩ := encodeText_inv hr
    simp only [Instr.legal, encodable, decide_eq_true_eq] at hl
    rw [length_flatMap_bitsOf]
    omega
  | dect a =>
    exact resultFits_ofText fun u hu => (length_le_of_decodeText hu).trans (of_decide_eq_true hf)
  | pars t =>
    refine resultFits_ofBits fun r hr => ?_
    obtain ⟨-, rfl⟩ := parseBitString_inv hr
    simp only [Instr.fits, textFits, Bool.and_eq_true, decide_eq_true_eq] at hf
    simpa using hf.1
  | rend a => simpa [answer, answerRend, renderBitString, resultFits] using of_decide_eq_true hf
  | xorv a d =>
    simp only [Instr.fits, bitsFit, Bool.and_eq_true, decide_eq_true_eq] at hf
    exact resultFits_ofBits fun r hr => (length_le_of_apply hr).trans hf.1
  | encr a t =>
    simp only [Instr.fits, bitsFit, Bool.and_eq_true, decide_eq_true_eq] at hf
    refine resultFits_ofBits fun r hr => ?_
    obtain ⟨_, -, hr⟩ := result_andThen_eq_ok hr
    exact (length_le_of_apply hr).trans hf.1
  | decr a d =>
    simp only [Instr.fits, bitsFit, Bool.and_eq_true, decide_eq_true_eq] at hf
    refine resultFits_ofText fun u hu => ?_
    obtain ⟨x, hx, hu⟩ := result_andThen_eq_ok hu
    exact (length_le_of_decodeText hu).trans ((length_le_of_apply hx).trans hf.1)
  | veql n m => exact resultFits_ofUnit _
  | vmul8 n => exact resultFits_ofUnit _
  | vklen n => exact resultFits_ofUnit _

theorem length_encodeResponse_le {c : Config} (hc : c.wf = true) {r : Response} (h : resultFits c r) :
    (encodeResponse c r).length ≤ longestFrame c := by
  obtain ⟨hnum, htext, hbits, -⟩ := formats_le_longestFrame hc
  cases r with
  | okBits r =>
    simp only [resultFits] at h
    simp only [encodeResponse_ok_bits, List.length_append, length_bitsOf]
    omega
  | okText u =>
    have := Nat.mul_le_mul_right c.cpW h
    simp only [encodeResponse_ok_text, List.length_append, length_bitsOf, length_flatMap_bitsOf]
    omega
  | okNone => simpa using by omega
  | error f => simpa using hnum

/-! ## Single steps -/

/-- Settles O15: a push that completes a frame is the execution of its command. -/
theorem stepRunsDecodedCommand : Obligations.StepRunsDecodedCommand := by
  rintro s k b ms ⟨mode, rx, tx⟩ i hm hp rfl rfl hs
  rw [step_move hm]
  exact hostPush_complete hp rfl rfl hs

/-- Settles O16: a push that leaves the frame incomplete keeps the bit. -/
theorem incompleteFrameOnlyGrows : Obligations.IncompleteFrameOnlyGrows := by
  rintro s k b ms ⟨mode, rx, tx⟩ hm hp rfl rfl hs
  rw [step_move hm]
  exact hostPush_incomplete hp rfl rfl hs

/-- Settles O17: a pull from a `tx` that is not empty. -/
theorem pullTakesFirstBit : Obligations.PullTakesFirstBit := by
  intro s k b tx ms p hm hp ht
  rw [step_move hm]
  exact hostPull_next hp ht

/-- Settles O21: after reset the ports are `NPORTS` copies of the idle port. -/
theorem resetStateIsIdle : Obligations.ResetStateIsIdle :=
  ⟨fun _ _ hk => List.getElem?_replicate_of_lt hk, fun _ => ⟨List.length_replicate, rfl⟩, rfl⟩

/-- Settles O25, by cases on what the step did: every one replaces ports and adds none. -/
theorem stepKeepsConfiguration : Obligations.StepKeepsConfiguration := by
  intro s t h
  rcases step_cases h with ⟨-, rfl⟩ | ⟨k, b, ms, p, -, -, -, -, ⟨-, rfl⟩ | ⟨i, -, rfl⟩ | ⟨n, v, -, rfl⟩⟩ |
    ⟨k, ms, p, b, tx, -, -, -, rfl⟩ | ⟨ms, -, rfl⟩
  · exact ⟨rfl, rfl⟩
  · exact ⟨rfl, List.length_set⟩
  · exact ⟨rfl, List.length_set⟩
  · exact ⟨rfl, List.length_set⟩
  · exact ⟨rfl, List.length_set⟩
  · exact ⟨rfl, List.length_map _⟩

/-! ## One port in a step -/

theorem transact_eq_none_iff {c : Config} {frame : BitString} :
    transact c frame = none ↔ parse c frame = .incomplete := by
  unfold transact
  cases parse c frame <;> simp

theorem transact_of_complete {c : Config} {frame : BitString} {i : Instr} (h : parse c frame = .complete i) :
    transact c frame = some (.ready, encodeResponse c (answer c i)) := by
  rw [transact, h]

theorem transact_of_illegal {c : Config} {frame : BitString} {reason value : Nat}
    (h : parse c frame = .illegal reason value) :
    transact c frame = some (.halted, encodeResponse c (.error ⟨.illegalCommand, reason, value⟩)) := by
  rw [transact, h]

/-- What a decided frame brings about is the answer of its command on a port that stays `READY`, or the `ERR` frame of
an illegal one on a port that halts. -/
theorem transact_eq_some {c : Config} {frame response : BitString} {mode : Mode}
    (h : transact c frame = some (mode, response)) :
    (∃ i, parse c frame = .complete i ∧ mode = .ready ∧ response = encodeResponse c (answer c i)) ∨
    ∃ reason value, parse c frame = .illegal reason value ∧ mode = .halted ∧
      response = encodeResponse c (.error ⟨.illegalCommand, reason, value⟩) := by
  cases hs : parse c frame with
  | incomplete => rw [transact_eq_none_iff.mpr hs] at h; cases h
  | complete i => rw [transact_of_complete hs] at h; cases h; exact .inl ⟨i, rfl, rfl, rfl⟩
  | illegal n v => rw [transact_of_illegal hs] at h; cases h; exact .inr ⟨n, v, rfl, rfl, rfl⟩

/-- The push that decides a frame does to its port what `transact` says, for a legal and an illegal frame alike. -/
theorem hostPush_transact {s : State} {k : Nat} {b : Bit} {p : Port} {mode : Mode} {response : BitString}
    (hp : s.ports[k]? = some p) (hm : p.mode = .ready) (ht : p.tx = [])
    (h : transact s.cfg (p.rx ++ [b]) = some (mode, response)) :
    hostPush k b s = .next { s with cur := k, ports := s.ports.set k ⟨mode, [], response⟩ } := by
  rcases transact_eq_some h with ⟨i, hs, rfl, rfl⟩ | ⟨n, v, hs, rfl, rfl⟩
  · exact hostPush_answers hp hm ht hs
  · exact hostPush_illegal hp hm ht hs

/-- What an enabled push makes of its port, when `rx` are the bits received with the pushed one (R32): the bits are
kept while the frame is undecided, and otherwise its response takes their place. -/
def PortPushed (c : Config) (rx : BitString) (q : Port) : Prop :=
  (parse c rx = .incomplete ∧ q = ⟨.ready, rx, []⟩) ∨
    ∃ mode response, transact c rx = some (mode, response) ∧ q = ⟨mode, [], response⟩

/-- Port `k` before and after port `j` is replaced: it is the replaced port, or it is unchanged. -/
theorem port_of_set {s : State} {j k : Nat} {p q x : Port} (hp : s.ports[k]? = some p)
    (hq : (s.ports.set j x)[k]? = some q) : (k = j ∧ q = x) ∨ q = p := by
  by_cases hk : k = j
  · subst hk
    rw [ports_set_self hp] at hq
    exact .inl ⟨rfl, (Option.some.inj hq).symm⟩
  · rw [ports_set_ne x hk, hp] at hq
    exact .inr (Option.some.inj hq).symm

/-- Everything a step can do to one port: nothing, a push on it, a pull from it, or reset. -/
theorem step_port_cases {s t : State} {k : Nat} {p q : Port} (h : step s = .next t) (hp : s.ports[k]? = some p)
    (hq : t.ports[k]? = some q) :
    q = p ∨
    (∃ b ms, s.moves = .push k b :: ms ∧ p.mode = .ready ∧ p.tx = [] ∧ PortPushed s.cfg (p.rx ++ [b]) q) ∨
    (∃ b tx ms, s.moves = .pull k :: ms ∧ p.tx = b :: tx ∧ q = { p with tx := tx }) ∨
    ((∃ ms, s.moves = .reset :: ms) ∧ q = Port.idle) := by
  rcases step_cases h with ⟨-, rfl⟩ | ⟨j, b, ms, p', hm, hp', hr, ht, hpush⟩ |
    ⟨j, ms, p', b, tx, hm, hp', ht, rfl⟩ | ⟨ms, hm, rfl⟩
  · exact .inl (Option.some.inj (hq.symm.trans hp))
  · obtain ⟨x, hx, hports⟩ : ∃ x, PortPushed s.cfg (p'.rx ++ [b]) x ∧ t.ports = s.ports.set j x := by
      rcases hpush with ⟨hs, rfl⟩ | ⟨i, hs, rfl⟩ | ⟨n, v, hs, rfl⟩
      · exact ⟨_, .inl ⟨hs, rfl⟩, rfl⟩
      · exact ⟨_, .inr ⟨_, _, transact_of_complete hs, rfl⟩, rfl⟩
      · exact ⟨_, .inr ⟨_, _, transact_of_illegal hs, rfl⟩, rfl⟩
    rw [hports] at hq
    rcases port_of_set hp hq with ⟨rfl, rfl⟩ | hsame
    · obtain rfl : p = p' := Option.some.inj (hp.symm.trans hp')
      exact .inr (.inl ⟨b, ms, hm, hr, ht, hx⟩)
    · exact .inl hsame
  · rcases port_of_set hp hq with ⟨rfl, rfl⟩ | hsame
    · obtain rfl : p = p' := Option.some.inj (hp.symm.trans hp')
      exact .inr (.inr (.inl ⟨b, tx, ms, hm, ht, rfl⟩))
    · exact .inl hsame
  · rw [List.getElem?_map, hp] at hq
    exact .inr (.inr (.inr ⟨⟨ms, hm⟩, (Option.some.inj hq).symm⟩))

/-- Settles O23, by cases on what the step did to the port: only a push whose frame is illegal gives a `READY` port
another mode, and only reset a `HALTED` one. -/
theorem modeChangesOnlyByIllegalFrameOrReset : Obligations.ModeChangesOnlyByIllegalFrameOrReset := by
  intro s t k p q h hp hq hne
  rcases step_port_cases h hp hq with rfl | ⟨b, ms, hm, hr, -, ⟨-, rfl⟩ | ⟨mode, response, hx, rfl⟩⟩ |
    ⟨b, tx, _, -, -, rfl⟩ | ⟨hm, rfl⟩
  · exact absurd rfl hne
  · exact absurd hr hne
  · rcases transact_eq_some hx with ⟨_, -, rfl, -⟩ | ⟨n, v, hs, rfl, -⟩
    · exact absurd hr hne
    · exact .inl ⟨hr, rfl, b, ms, n, v, hm, hs⟩
  · exact absurd rfl hne
  · cases hpm : p.mode with
    | ready => exact absurd hpm hne
    | halted => exact .inr ⟨rfl, rfl, hm⟩

/-! ## No port reads or writes another -/

/-- A move on port `k` leaves the other ports alone. -/
theorem step_other_port {s t : State} {k : Nat} {m : HostMove} {ms : List HostMove} (hm : s.moves = m :: ms)
    (hon : m.isOn k = true) (h : step s = .next t) {j : Nat} (hj : j ≠ k) : t.ports[j]? = s.ports[j]? := by
  rcases step_cases h with ⟨hm', -⟩ | ⟨i, b, ms', p, hm', -, -, -, hpush⟩ | ⟨i, ms', p, b, tx, hm', -, -, rfl⟩ |
    ⟨ms', hm', -⟩ <;> rw [hm] at hm' <;> cases hm'
  · obtain rfl : i = k := of_decide_eq_true hon
    rcases hpush with ⟨-, rfl⟩ | ⟨_, -, rfl⟩ | ⟨_, _, -, rfl⟩
    · exact ports_set_ne _ hj
    · exact ports_set_ne _ hj
    · exact ports_set_ne _ hj
  · obtain rfl : i = k := of_decide_eq_true hon
    exact ports_set_ne _ hj
  · cases hon

/-- Two steps that put the same port at `k` and hand over the same bits. -/
theorem sameAt_next {s₁ s₂ t₁ t₂ : State} {k : Nat} {q : Port} {new : List TakenBit}
    (h₁ : t₁.ports[k]? = some q) (h₂ : t₂.ports[k]? = some q) (ht₁ : t₁.taken = s₁.taken ++ new)
    (ht₂ : t₂.taken = s₂.taken ++ new) : sameAt k s₁ s₂ (.next t₁) (.next t₂) :=
  ⟨h₁.trans h₂.symm, new, ht₁, ht₂⟩

/-- A push reads the parameters and its own port only. -/
theorem hostPush_sameAt {s₁ s₂ : State} {k : Nat} (b : Bit) (hc : s₁.cfg = s₂.cfg)
    (hk : s₁.ports[k]? = s₂.ports[k]?) : sameAt k s₁ s₂ (hostPush k b s₁) (hostPush k b s₂) := by
  rcases hostPush_cases k b s₁ with ⟨hp, e⟩ | ⟨p, hp, ⟨hoff, e⟩ | ⟨hm, ht, ⟨hs, e⟩ | ⟨i, hs, e⟩ | ⟨n, v, hs, e⟩⟩⟩ <;>
    have hp₂ := hk.symm.trans hp <;> rw [e]
  · rw [hostPush_fault hp₂]
    rfl
  · rw [hostPush_refused hp₂ hoff]
    rfl
  · rw [hostPush_incomplete hp₂ hm ht (hc ▸ hs)]
    exact sameAt_next (ports_set_self hp) (ports_set_self hp₂) (List.append_nil _).symm (List.append_nil _).symm
  · rw [hostPush_answers hp₂ hm ht (hc ▸ hs), ← hc]
    exact sameAt_next (ports_set_self hp) (ports_set_self hp₂) (List.append_nil _).symm (List.append_nil _).symm
  · rw [hostPush_illegal hp₂ hm ht (hc ▸ hs)]
    exact sameAt_next (ports_set_self hp) (ports_set_self hp₂) (List.append_nil _).symm (List.append_nil _).symm

/-- A pull reads its own port only. -/
theorem hostPull_sameAt {s₁ s₂ : State} {k : Nat} (hk : s₁.ports[k]? = s₂.ports[k]?) :
    sameAt k s₁ s₂ (hostPull k s₁) (hostPull k s₂) := by
  cases hp : s₁.ports[k]? with
  | none =>
    rw [hostPull_fault hp, hostPull_fault (hk.symm.trans hp)]
    rfl
  | some p =>
    have hp₂ := hk.symm.trans hp
    cases ht : p.tx with
    | nil =>
      rw [hostPull_refused hp ht, hostPull_refused hp₂ ht]
      rfl
    | cons b tx =>
      rw [hostPull_next hp ht, hostPull_next hp₂ ht]
      exact sameAt_next (ports_set_self hp) (ports_set_self hp₂) rfl rfl

/-- Settles O24: what a move writes by the frame of a step, what it reads by comparing the two runs of the move. -/
theorem portsAreDisjoint : Obligations.PortsAreDisjoint := by
  constructor
  · intro s t k m ms hm hon h
    exact ⟨(stepKeepsConfiguration s t h).2, fun j hj => step_other_port hm hon h hj⟩
  · intro s₁ s₂ k m ms₁ ms₂ hon hm₁ hm₂ hc hk
    rw [step_move hm₁, step_move hm₂]
    cases m with
    | reset => cases hon
    | push j b =>
      obtain rfl : j = k := of_decide_eq_true hon
      exact hostPush_sameAt b hc hk
    | pull j =>
      obtain rfl : j = k := of_decide_eq_true hon
      exact hostPull_sameAt hk

/-! ## The invariant of the block -/

/-- An idle port waits for the first bit of an opcode. -/
theorem portInv_idle (c : Config) : Port.idle.Inv c :=
  ⟨parse_of_scan_incomplete (scan_short c (by decide : ([] : BitString).length < 8)), fun _ => rfl, fun _ => rfl,
    by simp [longestFrame], by simp⟩

theorem inv_resetOf {c : Config} (h : c.wf = true) : (State.resetOf c).Inv :=
  ⟨h, List.length_replicate, fun _ hp => List.eq_of_mem_replicate hp ▸ portInv_idle c⟩

/-- Settles O37: after reset every port is idle. -/
theorem resetStateHasInvariant : Obligations.ResetStateHasInvariant :=
  ⟨fun _ => inv_resetOf, inv_resetOf (by decide)⟩

theorem length_le_of_transact {c : Config} (hc : c.wf = true) {frame response : BitString} {mode : Mode}
    (h : transact c frame = some (mode, response)) : response.length ≤ longestFrame c := by
  rcases transact_eq_some h with ⟨i, hs, -, rfl⟩ | ⟨n, v, -, -, rfl⟩
  · exact length_encodeResponse_le hc (resultFits_answer (wellFormed_of_parse hs))
  · exact length_encodeResponse_le hc trivial

/-- What a step does to a port keeps its invariant: a kept bit leaves an incomplete frame, which is short enough; a
response takes the request's place and fits; a pull only shortens `tx`. -/
theorem step_keeps_portInv {s t : State} {k : Nat} {p q : Port} (hc : s.cfg.wf = true) (h : step s = .next t)
    (hp : s.ports[k]? = some p) (hq : t.ports[k]? = some q) (hinv : p.Inv s.cfg) : q.Inv s.cfg := by
  obtain ⟨hwait, hempty, hhalt, hrx, htx⟩ := hinv
  obtain ⟨hwait₀, -, -, hrx₀, -⟩ := portInv_idle s.cfg
  rcases step_port_cases h hp hq with rfl | ⟨b, ms, -, -, -, ⟨hs, rfl⟩ | ⟨mode, response, hx, rfl⟩⟩ |
    ⟨b, tx, _, -, ht, rfl⟩ | ⟨-, rfl⟩
  · exact ⟨hwait, hempty, hhalt, hrx, htx⟩
  · exact ⟨hs, fun ht => absurd rfl ht, fun hm => (nomatch (hm : Mode.ready = .halted)),
      length_lt_of_parse_incomplete hc hs, Nat.zero_le _⟩
  · exact ⟨hwait₀, fun _ => rfl, fun _ => rfl, hrx₀, length_le_of_transact hc hx⟩
  · rw [ht] at hempty htx
    exact ⟨hwait, fun _ => hempty (List.cons_ne_nil b tx), hhalt, hrx, (Nat.le_succ _).trans htx⟩
  · exact portInv_idle s.cfg

/-- Settles O36, port by port: the port at the same place before the step had the invariant. -/
theorem stepKeepsBlockInvariant : Obligations.StepKeepsBlockInvariant := by
  intro s t ⟨hc, hn, hports⟩ h
  obtain ⟨hcfg, hlen⟩ := stepKeepsConfiguration s t h
  refine ⟨hcfg ▸ hc, by rw [hlen, hcfg, hn], fun q hq => ?_⟩
  obtain ⟨k, hk, rfl⟩ := List.getElem_of_mem hq
  have hk' : k < s.ports.length := hlen ▸ hk
  rw [hcfg]
  exact step_keeps_portInv hc h (List.getElem?_eq_getElem hk') (List.getElem?_eq_getElem hk)
    (hports _ (List.getElem_mem hk'))

/-! ## Whole transactions -/

/-- The pushes of a frame that is decided at its last bit do together what `transact` says, whatever part of it the
port already holds. -/
theorem steps_pushFrame {s : State} {k : Nat} {rx bits response : BitString} {mode : Mode} {ms : List HostMove}
    (hne : bits ≠ []) (hp : s.ports[k]? = some ⟨.ready, rx, []⟩) (hm : s.moves = pushFrame k bits ++ ms)
    (hwait : ∀ n, n < bits.length → parse s.cfg (rx ++ bits.take n) = .incomplete)
    (hx : transact s.cfg (rx ++ bits) = some (mode, response)) :
    steps bits.length s = .next { s with
      cur := k, moves := ms, ports := s.ports.set k ⟨mode, [], response⟩ } := by
  induction bits, hne using List.recNeNil generalizing s rx with
  | singleton b =>
    have hstep := (step_move hm).trans (hostPush_transact hp rfl rfl hx)
    rw [List.length_singleton, steps_one_next hstep, steps_zero]
    rfl
  | cons b bits hne ih =>
    have hlen : 0 < bits.length := List.length_pos_of_ne_nil hne
    have hs : parse s.cfg (rx ++ [b]) = .incomplete := by simpa using hwait 1 (by simpa using hlen)
    have hstep := (step_move hm).trans (hostPush_incomplete hp rfl rfl hs)
    rw [List.length_cons, steps_one_next hstep, ih (rx := rx ++ [b]) (ports_set_self hp) rfl]
    · simp
    · intro n hn
      simpa using hwait (n + 1) (by simpa using hn)
    · simpa using hx

/-- As many pulls as `tx` has bits hand all of it over, in order. -/
theorem steps_pullBits {s : State} {k : Nat} {mode : Mode} {rx tx : BitString} {ms : List HostMove}
    (hp : s.ports[k]? = some ⟨mode, rx, tx⟩) (hm : s.moves = pullBits k tx.length ++ ms) :
    steps tx.length s = .next { s with
      moves := ms, ports := s.ports.set k ⟨mode, rx, []⟩, taken := s.taken ++ takenFrame k tx } := by
  induction tx generalizing s with
  | nil =>
    obtain rfl : s.moves = ms := hm
    simp [steps_zero, takenFrame, ports_set_same hp]
  | cons b tx ih =>
    have hstep := (step_move hm).trans (hostPull_next hp rfl)
    rw [List.length_cons, steps_one_next hstep, ih (ports_set_self hp) rfl]
    simp [takenFrame]

/-- Settles O30: the pushes and then the pulls. An empty frame is not decided. -/
theorem bitStepsRefineTransact : Obligations.BitStepsRefineTransact := by
  intro s k frame mode response ms hp hwait hx hm
  have hne : frame ≠ [] := by
    rintro rfl
    cases (transact_eq_none_iff.mpr (portInv_idle s.cfg).1).symm.trans hx
  rw [List.append_assoc] at hm
  have hpush := steps_pushFrame hne hp hm (rx := []) hwait hx
  refine ⟨hpush, ?_⟩
  rw [steps_add hpush, steps_pullBits (ports_set_self hp) rfl]
  simp

/-- Settles O28: a command's frame is decided at its last bit, so the bits do what `transact` says of it. -/
theorem transactionAnswersAndLeavesNoTrace : Obligations.TransactionAnswersAndLeavesNoTrace := by
  intro s k i ms _ hwf hp hm
  have hx := transact_of_complete (parse_encode hwf)
  obtain ⟨hpush, hpull⟩ :=
    bitStepsRefineTransact s k _ _ _ ms hp (fun _ => parse_take_encode hwf) hx hm
  refine ⟨hpush, ?_⟩
  rw [ports_set_same hp] at hpull
  simpa [transactionMoves, pushFrame, pullBits] using hpull

end Sys2Proof.Proofs
end

section
/-! The statements on sequences and interleavings of transactions (spec/20_memory.md, R46 and R47). -/

namespace Sys2Proof.Proofs
open Sys2Proof Sys2Proof.Machine

/-! ## Commands one after the other on one port -/

/-- Settles O29, by induction over the commands: the first transaction leaves the port idle for the others. -/
theorem responsesLeaveInRequestOrder : Obligations.ResponsesLeaveInRequestOrder := by
  intro s k is ms hc hwf hp hm
  induction is generalizing s with
  | nil => exact ⟨s, steps_zero s, (List.append_nil _).symm, rfl, hm, rfl⟩
  | cons i is ih =>
    obtain ⟨hi, his⟩ := List.forall_mem_cons.mp hwf
    rw [List.flatMap_cons, List.append_assoc] at hm
    obtain ⟨-, hfirst⟩ := transactionAnswersAndLeavesNoTrace s k i _ hc hi hp hm
    obtain ⟨t, hrest, htaken, hports, hmoves, hcfg⟩ := ih { s with
      cur := k, moves := is.flatMap (transactionMoves s.cfg k) ++ ms,
      taken := s.taken ++ takenFrame k (encodeResponse s.cfg (answer s.cfg i)) } hc his hp rfl
    refine ⟨t, ?_, ?_, hports, hmoves, hcfg⟩
    · rw [List.flatMap_cons, List.length_append, steps_add hfirst]
      exact hrest
    · rw [htaken, List.flatMap_cons, List.append_assoc]

/-! ## The moves of one port among those of others -/

@[simp] theorem takenFrom_append (k : Nat) (l₁ l₂ : List TakenBit) :
    takenFrom k (l₁ ++ l₂) = takenFrom k l₁ ++ takenFrom k l₂ :=
  List.filter_append l₁ l₂

theorem step_moves {s t : State} {m : HostMove} {ms : List HostMove} (hm : s.moves = m :: ms)
    (h : step s = .next t) : t.moves = ms := by
  rcases step_cases h with ⟨hm', -⟩ | ⟨k, b, ms', p, hm', -, -, -, hpush⟩ | ⟨k, ms', p, b, tx, hm', -, -, rfl⟩ |
    ⟨ms', hm', rfl⟩ <;> rw [hm] at hm' <;> cases hm'
  · rcases hpush with ⟨-, rfl⟩ | ⟨_, -, rfl⟩ | ⟨_, _, -, rfl⟩ <;> rfl
  · rfl
  · rfl

/-- A move that does not reach port `k` is a push or a pull on another port. -/
theorem exists_isOn_of_not_reaches {k : Nat} {m : HostMove} (h : ¬ m.reaches k = true) :
    ∃ j, k ≠ j ∧ m.isOn j = true := by
  cases m with
  | push j b => exact ⟨j, fun e => h (by simp [HostMove.reaches, HostMove.isOn, e]), beq_self_eq_true j⟩
  | pull j => exact ⟨j, fun e => h (by simp [HostMove.reaches, HostMove.isOn, e]), beq_self_eq_true j⟩
  | reset => exact absurd rfl h

/-- A move on port `j` hands over no bit of another port. -/
theorem step_other_takenFrom {s t : State} {j k : Nat} {m : HostMove} {ms : List HostMove} (hm : s.moves = m :: ms)
    (hon : m.isOn j = true) (h : step s = .next t) (hk : k ≠ j) : takenFrom k t.taken = takenFrom k s.taken := by
  rcases step_cases h with ⟨-, rfl⟩ | ⟨i, b, ms', p, -, -, -, -, hpush⟩ | ⟨i, ms', p, b, tx, hm', -, -, rfl⟩ |
    ⟨ms', -, rfl⟩
  · rfl
  · rcases hpush with ⟨-, rfl⟩ | ⟨_, -, rfl⟩ | ⟨_, _, -, rfl⟩ <;> rfl
  · obtain rfl : m = .pull i := (List.cons.inj (hm.symm.trans hm')).1
    obtain rfl : i = j := of_decide_eq_true hon
    simp [takenFrom, hk.symm]
  · rfl

/-- `s'` is what port `k` sees of `s`: the same parameters, the same port, the same bits of it in the host's hands, and
of the host's plan the moves that reach the port. -/
structure SeenFrom (k : Nat) (s s' : State) : Prop where
  cfg : s'.cfg = s.cfg
  port : s'.ports[k]? = s.ports[k]?
  taken : takenFrom k s'.taken = takenFrom k s.taken
  moves : s'.moves = s.moves.filter (HostMove.reaches k)

/-- A push, a pull or a reset that reaches port `k` is made in the port's own run too. -/
theorem SeenFrom.step_reaching {k : Nat} {s s' t : State} {m : HostMove} {ms : List HostMove} (hs : SeenFrom k s s')
    (hm : s.moves = m :: ms) (hr : m.reaches k = true) (h : step s = .next t) :
    ∃ t', step s' = .next t' ∧ SeenFrom k t t' := by
  have hm' : s'.moves = m :: ms.filter (HostMove.reaches k) := by rw [hs.moves, hm, List.filter_cons_of_pos hr]
  have hmoves := step_moves hm h
  suffices hport : ∃ t', step s' = .next t' ∧ t'.ports[k]? = t.ports[k]? ∧
      takenFrom k t'.taken = takenFrom k t.taken by
    obtain ⟨t', h', hp, ht⟩ := hport
    exact ⟨t', h', by rw [(stepKeepsConfiguration _ _ h').1, hs.cfg, (stepKeepsConfiguration _ _ h).1], hp, ht,
      by rw [step_moves hm' h', hmoves]⟩
  by_cases hon : m.isOn k = true
  · have hsame := portsAreDisjoint.2 s' s k m _ _ hon hm' hm hs.cfg hs.port
    rw [h] at hsame
    cases h' : step s' with
    | next t' =>
      rw [h'] at hsame
      obtain ⟨hp, new, ht', ht⟩ := hsame
      exact ⟨t', rfl, hp, by rw [ht', ht, takenFrom_append, takenFrom_append, hs.taken]⟩
    | fault f => rw [h'] at hsame; cases hsame
    | refused r => rw [h'] at hsame; cases hsame
  · obtain rfl : m = .reset := by simpa [HostMove.reaches, hon] using hr
    rw [step_move hm] at h
    cases h
    exact ⟨_, step_move hm', by simp only [resetBlock_ports, List.getElem?_map, hs.port], hs.taken⟩

/-- A move that does not reach port `k` changes nothing the port sees. -/
theorem SeenFrom.step_other {k : Nat} {s s' t : State} {m : HostMove} {ms : List HostMove} (hs : SeenFrom k s s')
    (hm : s.moves = m :: ms) (hr : ¬ m.reaches k = true) (h : step s = .next t) : SeenFrom k t s' := by
  obtain ⟨j, hj, hon⟩ := exists_isOn_of_not_reaches hr
  exact ⟨by rw [hs.cfg, (stepKeepsConfiguration s t h).1], by rw [hs.port, step_other_port hm hon h hj],
    by rw [hs.taken, step_other_takenFrom hm hon h hj],
    by rw [hs.moves, hm, step_moves hm h, List.filter_cons_of_neg hr]⟩

/-- The port's own run matches the run of all the moves: one that reaches the port by itself, another by no step. -/
theorem SeenFrom.steps_all {k : Nat} {s s' t : State} (hs : SeenFrom k s s') (h : steps s.moves.length s = .next t) :
    ∃ t', steps s'.moves.length s' = .next t' ∧ SeenFrom k t t' := by
  induction hm : s.moves generalizing s s' with
  | nil =>
    rw [hm] at h
    cases h
    exact ⟨s', by rw [hs.moves, hm]; rfl, hs⟩
  | cons m ms ih =>
    rw [hm, List.length_cons, steps_succ] at h
    cases hstep : step s with
    | fault f => rw [hstep] at h; cases h
    | refused r => rw [hstep] at h; cases h
    | next u =>
      have hu := step_moves hm hstep
      replace h : steps u.moves.length u = .next t := by rw [hu]; rwa [hstep] at h
      by_cases hr : m.reaches k = true
      · obtain ⟨u', hstep', hs'⟩ := hs.step_reaching hm hr hstep
        obtain ⟨t', h', ht⟩ := ih hs' h hu
        refine ⟨t', ?_, ht⟩
        rw [hs.moves, hm, List.filter_cons_of_pos hr, List.length_cons, steps_one_next hstep', ← hu, ← hs'.moves]
        exact h'
      · exact ih (hs.step_other hm hr hstep) h hu

/-- Settles O32, by the simulation `SeenFrom`: it holds at the start, and the runs keep it. -/
theorem interleavingDoesNotMatter : Obligations.InterleavingDoesNotMatter := by
  intro s t k h
  have hs : SeenFrom k s { s with moves := s.moves.filter (HostMove.reaches k) } := ⟨rfl, rfl, rfl, rfl⟩
  obtain ⟨t', h', ht⟩ := hs.steps_all h
  exact ⟨t', h', ht.port, ht.taken⟩

end Sys2Proof.Proofs
end

section
/-! The statements of the encoding (spec/30_encoding.md): request frames and their parser, response frames and the
host's reader of them, illegal frames on a port, and host scripts. -/

namespace Sys2Proof.Proofs
open Sys2Proof Sys2Proof.Machine

/-! ## Request frames -/

theorem decode_eq_some_iff {c : Config} {b : BitString} {i : Instr} {rest : BitString} :
    decode c b = some (i, rest) ↔ scan c b = .complete i rest := by
  unfold decode
  cases scan c b <;> simp

/-- Settles O38: the scan of a command's frame gives the command back and leaves what follows. -/
theorem decodeEncodeRoundTrip : Obligations.DecodeEncodeRoundTrip :=
  fun _ _ rest h => decode_eq_some_iff.mpr (scan_encode h rest)

/-- Settles O39: the frame is undecided before its last bit, and is the command's at it. -/
theorem parseWaitsUntilLastBit : Obligations.ParseWaitsUntilLastBit :=
  fun _ _ h => ⟨fun _ => parse_take_encode h, parse_encode h⟩

/-- The text of `ENCT` and `ENCR`, once taken, was written as `writeText` writes it. -/
theorem eq_writeText_of_scanEncodableText {c : Config} {b r : BitString} {k : Text → BitString → Scan} {i : Instr}
    (h : scanEncodableText c b k = .complete i r) : ∃ t r', b = writeText c t ++ r' ∧ k t r' = .complete i r := by
  obtain ⟨n, r₁, hn, h⟩ := got_scan_eq_complete h
  split at h
  · cases h
  · obtain ⟨t, r', ht, hk⟩ := got_scan_eq_complete h
    obtain ⟨rfl, -⟩ := readNumber_got hn
    obtain ⟨rfl, rfl, -⟩ := readCodes_got ht
    exact ⟨t, r', by rw [writeText, List.append_assoc], hk⟩

/-- Operand fields that are complete are those of a command with the opcode in hand, and the bits after them. -/
theorem eq_encodeOperands_of_scanOperands {c : Config} {op : Op} {b r : BitString} {i : Instr}
    (h : scanOperands c op b = .complete i r) : i.op = op ∧ b = encodeOperands c i ++ r := by
  cases op with
  | enct =>
    obtain ⟨t, _, ht, h⟩ := eq_writeText_of_scanEncodableText h
    cases h
    exact ⟨rfl, ht⟩
  | dect | rend =>
    obtain ⟨a, _, ha, h⟩ := got_scan_eq_complete h
    cases h
    exact ⟨rfl, (readBits_got ha).1⟩
  | pars =>
    obtain ⟨t, _, ht, h⟩ := got_scan_eq_complete h
    cases h
    exact ⟨rfl, (readText_got ht).1⟩
  | xorv | decr =>
    obtain ⟨a, _, ha, h⟩ := got_scan_eq_complete h
    obtain ⟨d, _, hd, h⟩ := got_scan_eq_complete h
    cases h
    rw [(readBits_got ha).1, (readBits_got hd).1]
    exact ⟨rfl, (List.append_assoc _ _ _).symm⟩
  | encr =>
    obtain ⟨a, _, ha, h⟩ := got_scan_eq_complete h
    obtain ⟨t, _, ht, h⟩ := eq_writeText_of_scanEncodableText h
    cases h
    rw [(readBits_got ha).1, ht]
    exact ⟨rfl, (List.append_assoc _ _ _).symm⟩
  | veql =>
    obtain ⟨n, _, hn, h⟩ := got_scan_eq_complete h
    obtain ⟨m, _, hm, h⟩ := got_scan_eq_complete h
    cases h
    rw [(readNum_got hn).1, (readNum_got hm).1]
    exact ⟨rfl, (List.append_assoc _ _ _).symm⟩
  | vmul8 | vklen =>
    obtain ⟨n, _, hn, h⟩ := got_scan_eq_complete h
    cases h
    exact ⟨rfl, (readNum_got hn).1⟩

/-- What scans as a command is its encoding and the bits after it. -/
theorem eq_encode_of_scan {c : Config} {b r : BitString} {i : Instr} (h : scan c b = .complete i r) :
    b = encode c i ++ r := by
  rcases scan_cases c b with ⟨-, hs⟩ | ⟨_, _, -, -, -, hs⟩ | ⟨op, r', rfl, hs⟩ <;> rw [hs] at h
  · cases h
  · cases h
  · obtain ⟨rfl, rfl⟩ := eq_encodeOperands_of_scanOperands h
    rw [encode, List.append_assoc]

/-- Settles O40: only well-formed commands come out of the parser, and their bits are their encoding. -/
theorem decodedFrameIsCanonical : Obligations.DecodedFrameIsCanonical := by
  intro c b i rest h
  have hs := decode_eq_some_iff.mp h
  exact ⟨wellFormed_of_parse (parse_complete_iff.mpr ⟨rest, hs⟩), eq_encode_of_scan hs⟩

/-- Settles O44: each frame is the encoding of its command, which is well-formed. -/
theorem specFramesDecode : Obligations.SpecFramesDecode := by
  have complete {b : BitString} {i : Instr} (hb : b = encode Config.default i)
      (h : i.wellFormed Config.default = true) : parse Config.default b = .complete i := hb ▸ parse_encode h
  exact ⟨complete (by decide) (by decide), complete (by decide) (by decide), complete (by decide) (by decide),
    complete (by decide) (by decide), complete (by decide) (by decide)⟩

/-! ## Illegal frames -/

theorem ofCode_eq_none_iff {n : Nat} : Op.ofCode n = none ↔ n ∉ definedOpcodes := by
  unfold Op.ofCode
  split <;> simp_all [definedOpcodes]

theorem got_scan_eq_illegal {α : Type} {g : Got α} {k : α → BitString → Scan} {reason value : Nat} {r : BitString}
    (h : g.scan k = .illegal reason value r) : ∃ v r', g = .got v r' ∧ k v r' = .illegal reason value r := by
  cases g with
  | short n => cases h
  | got v r' => exact ⟨v, r', rfl, h⟩

/-- A text to encode is illegal by its count alone. -/
theorem scanEncodableText_eq_illegal {c : Config} {b r : BitString} {f : Text → Instr} {reason value : Nat}
    (h : scanEncodableText c b (fun t => .complete (f t)) = .illegal reason value r) :
    reason = reasonTextTooLong ∧ value < 2 ^ c.lenW ∧ 8 * value > c.capBits ∧ b = bitsOf c.lenW value ++ r := by
  obtain ⟨n, r₁, hn, hcount⟩ := got_scan_eq_illegal h
  obtain ⟨rfl, hlt⟩ := readNumber_got hn
  split at hcount
  · next hbig =>
    cases hcount
    exact ⟨rfl, hlt, hbig, rfl⟩
  · obtain ⟨_, _, -, hcodes⟩ := got_scan_eq_illegal hcount
    cases hcodes

/-- Only `ENCT` and `ENCR` have illegal operands, and only by the count of their text (R70). -/
theorem scanOperands_eq_illegal {c : Config} {op : Op} {b r : BitString} {reason value : Nat}
    (h : scanOperands c op b = .illegal reason value r) :
    reason = reasonTextTooLong ∧ value < 2 ^ c.lenW ∧ 8 * value > c.capBits ∧
      ((op = .enct ∧ b = bitsOf c.lenW value ++ r) ∨
        op = .encr ∧ ∃ a, bitsFit c a = true ∧ b = writeBits c a ++ (bitsOf c.lenW value ++ r)) := by
  cases op with
  | enct =>
    obtain ⟨hreason, hlt, hbig, hb⟩ := scanEncodableText_eq_illegal h
    exact ⟨hreason, hlt, hbig, .inl ⟨rfl, hb⟩⟩
  | encr =>
    obtain ⟨a, _, ha, h⟩ := got_scan_eq_illegal h
    obtain ⟨hb, hfit⟩ := readBits_got ha
    obtain ⟨hreason, hlt, hbig, rfl⟩ := scanEncodableText_eq_illegal h
    exact ⟨hreason, hlt, hbig, .inr ⟨rfl, a, hfit, hb⟩⟩
  | dect | pars | rend | vmul8 | vklen =>
    obtain ⟨_, _, -, h⟩ := got_scan_eq_illegal h
    cases h
  | xorv | decr | veql =>
    obtain ⟨_, _, -, h⟩ := got_scan_eq_illegal h
    obtain ⟨_, _, -, h⟩ := got_scan_eq_illegal h
    cases h

theorem scan_enct_tooLong {c : Config} {n : Nat} (hn : n < 2 ^ c.lenW) (hbig : 8 * n > c.capBits) (r : BitString) :
    scan c (bitsOf 8 0x01 ++ bitsOf c.lenW n ++ r) = .illegal reasonTextTooLong n r := by
  rw [List.append_assoc]
  exact (scan_opcode c .enct _).trans (scanEncodableText_tooLong hn hbig r _)

theorem scan_encr_tooLong {c : Config} {n : Nat} {a : BitString} (ha : a.length ≤ c.capBits) (hn : n < 2 ^ c.lenW)
    (hbig : 8 * n > c.capBits) (r : BitString) :
    scan c (bitsOf 8 0x09 ++ bitsOf c.lenW a.length ++ a ++ bitsOf c.lenW n ++ r) =
      .illegal reasonTextTooLong n r := by
  have hkey := readBits_append (decide_eq_true ha : bitsFit c a = true) (bitsOf c.lenW n ++ r)
  rw [writeBits, List.append_assoc] at hkey
  simp only [List.append_assoc]
  refine (scan_opcode c .encr _).trans ?_
  rw [scanOperands, hkey]
  exact scanEncodableText_tooLong hn hbig r _

/-- Of the 19 values up to the last defined opcode ten are defined, and none of the 237 values above it is. -/
theorem length_undefinedOpcodes :
    ((List.range 256).filter fun v => !definedOpcodes.contains v).length = 246 := by
  have hupTo : ((List.range 19).filter fun v => !definedOpcodes.contains v).length = 9 := by decide
  have habove : ∀ v ∈ (List.range 237).map (19 + ·), (!definedOpcodes.contains v) = true := by
    intro v hv
    obtain ⟨x, -, rfl⟩ := List.mem_map.mp hv
    simpa [definedOpcodes] using by omega
  rw [List.range_add (n := 19) (m := 237), List.filter_append, List.length_append, hupTo,
    List.filter_eq_self.mpr habove, List.length_map, List.length_range]

/-- Settles O41: the inversion of an illegal scan, and for each of its outcomes the scan that has it. -/
theorem onlyTwoThingsAreIllegal : Obligations.OnlyTwoThingsAreIllegal := by
  refine ⟨fun c rx reason value => ⟨fun h => ?_, fun h => parse_illegal_iff.mpr ?_⟩, length_undefinedOpcodes⟩
  · obtain ⟨rest, h⟩ := parse_illegal_iff.mp h
    rcases scan_cases c rx with ⟨-, hs⟩ | ⟨n, r, rfl, hlt, hnone, hs⟩ | ⟨op, r, rfl, hs⟩ <;> rw [hs] at h
    · cases h
    · cases h
      exact .inl ⟨rfl, hlt, ofCode_eq_none_iff.mp hnone, _, rfl⟩
    · obtain ⟨rfl, hlt, hbig, ⟨rfl, rfl⟩ | ⟨rfl, a, ha, rfl⟩⟩ := scanOperands_eq_illegal h
      · exact .inr ⟨rfl, hlt, hbig, .inl ⟨rest, (List.append_assoc _ _ _).symm⟩⟩
      · refine .inr ⟨rfl, hlt, hbig, .inr ⟨a, rest, of_decide_eq_true ha, ?_⟩⟩
        simp only [writeBits, List.append_assoc]
        rfl
  · rcases h with ⟨rfl, hlt, hundef, r, rfl⟩ | ⟨rfl, hlt, hbig, ⟨r, rfl⟩ | ⟨a, r, ha, rfl⟩⟩
    · exact ⟨r, scan_undefined c hlt (ofCode_eq_none_iff.mpr hundef) r⟩
    · exact ⟨r, scan_enct_tooLong hlt hbig r⟩
    · exact ⟨r, scan_encr_tooLong ha hlt hbig r⟩

/-- A frame that its last bit makes illegal is undecided before that bit. -/
theorem parse_take_of_scan_illegal {c : Config} {frame : BitString} {reason value : Nat}
    (h : scan c frame = .illegal reason value []) {n : Nat} (hn : n < frame.length) :
    parse c (frame.take n) = .incomplete := by
  by_contra hne
  have hwait : ∀ m, scan c (frame.take n) ≠ .incomplete m := fun m hm => hne (parse_of_scan_incomplete hm)
  have hmore := scansPrefix_scan c _ (frame.drop n) hwait
  have hrest : frame.drop n ≠ [] := by simpa using hn
  rw [List.take_append_drop, h] at hmore
  cases hs : scan c (frame.take n) with
  | incomplete m => exact hwait m hs
  | complete j r => simp [hs, withRest] at hmore
  | illegal m v r => simp [hs, withRest, hrest] at hmore

/-- The pushes of bits that decide nothing leave them in `rx`. -/
theorem steps_pushFrame_undecided {s : State} {k : Nat} {rx bits : BitString} {ms : List HostMove} (hne : bits ≠ [])
    (hp : s.ports[k]? = some ⟨.ready, rx, []⟩) (hm : s.moves = pushFrame k bits ++ ms)
    (hwait : ∀ n, n ≤ bits.length → parse s.cfg (rx ++ bits.take n) = .incomplete) :
    steps bits.length s = .next { s with
      cur := k, moves := ms, ports := s.ports.set k ⟨.ready, rx ++ bits, []⟩ } := by
  induction bits, hne using List.recNeNil generalizing s rx with
  | singleton b =>
    have hstep := (step_move hm).trans (hostPush_incomplete hp rfl rfl (hwait 1 le_rfl))
    rw [List.length_singleton, steps_one_next hstep, steps_zero]
    rfl
  | cons b bits hne ih =>
    have hstep := (step_move hm).trans (hostPush_incomplete hp rfl rfl (hwait 1 (by simp)))
    rw [List.length_cons, steps_one_next hstep, ih (rx := rx ++ [b]) (ports_set_self hp) rfl]
    · simp
    · intro n hn
      simpa using hwait (n + 1) (by simpa using hn)

/-- A frame that its last bit makes illegal, pushed on an idle port: the port only collects it until then, and that
bit halts the port with the `ERR` frame (R67, R179). -/
theorem steps_pushFrame_illegal {s : State} {k reason value : Nat} {frame : BitString} {ms : List HostMove}
    (hp : s.ports[k]? = some ⟨.ready, [], []⟩) (hm : s.moves = pushFrame k frame ++ ms)
    (h : scan s.cfg frame = .illegal reason value []) :
    (∀ n, 0 < n → n < frame.length → steps n s = .next { s with
        cur := k, moves := pushFrame k (frame.drop n) ++ ms,
        ports := s.ports.set k ⟨.ready, frame.take n, []⟩ }) ∧
      steps frame.length s = .next { s with
        cur := k, moves := ms, ports := s.ports.set k ⟨.halted, [], errFrame 0x7F reason value⟩ } := by
  have hwait : ∀ n, n < frame.length → parse s.cfg (frame.take n) = .incomplete :=
    fun _ => parse_take_of_scan_illegal h
  constructor
  · intro n hpos hn
    have hlen : (frame.take n).length = n := List.length_take_of_le hn.le
    have hne : frame.take n ≠ [] := List.length_pos_iff.mp (hlen.symm ▸ hpos)
    have hm' : s.moves = pushFrame k (frame.take n) ++ (pushFrame k (frame.drop n) ++ ms) := by
      rw [hm, ← List.append_assoc, pushFrame, pushFrame, pushFrame, ← List.map_append, List.take_append_drop]
    have hsteps := steps_pushFrame_undecided hne hp hm' fun j hj => by
      rw [List.nil_append, List.take_take, min_eq_left (hlen ▸ hj)]
      exact hwait j (by omega)
    rwa [hlen] at hsteps
  · have hne : frame ≠ [] := by
      rintro rfl
      cases h
    exact steps_pushFrame hne hp hm hwait (transact_of_illegal (parse_illegal_iff.mpr ⟨[], h⟩))

/-- Settles O33: the eight bits of an undefined opcode are illegal at the last of them. -/
theorem undefinedOpcodeHaltsAtEighthBit : Obligations.UndefinedOpcodeHaltsAtEighthBit := by
  intro s k opc ms hp hlt hundef hm
  have hscan : scan s.cfg (bitsOf 8 opc) = .illegal reasonUndefinedOpcode opc [] := by
    simpa using scan_undefined s.cfg hlt (ofCode_eq_none_iff.mpr hundef) []
  obtain ⟨hbefore, hat⟩ := steps_pushFrame_illegal hp hm hscan
  exact ⟨hbefore 7 (by decide) (by simp), hat⟩

/-- Settles O34: an opcode, for `ENCR` a key, and a count that is too great are illegal at the last bit of the count. -/
theorem tooLongTextHaltsAtCount : Obligations.TooLongTextHaltsAtCount := by
  intro s k n front ms hp hn hbig hfront hm
  have hscan : scan s.cfg (front ++ bitsOf s.cfg.lenW n) = .illegal reasonTextTooLong n [] := by
    rcases hfront with rfl | ⟨a, ha, rfl⟩
    · simpa using scan_enct_tooLong hn hbig []
    · simpa using scan_encr_tooLong ha hn hbig []
  have hlen : (front ++ bitsOf s.cfg.lenW n).length = front.length + s.cfg.lenW := by simp
  obtain ⟨hbefore, hat⟩ := steps_pushFrame_illegal hp hm hscan
  rw [hlen] at hbefore hat
  refine ⟨fun m hlt => ?_, hat⟩
  rcases m.eq_zero_or_pos with rfl | hpos
  · exact ⟨s, _, steps_zero s, hp, rfl, rfl⟩
  · exact ⟨_, _, hbefore m hpos hlt, ports_set_self hp, rfl, rfl⟩

/-! ## Responses -/

/-- Settles O11: a command's execution places its answer, for every arm alike. -/
theorem everyCommandCompletes : Obligations.EveryCommandCompletes :=
  fun i _ _ hp => exec_eq hp i

theorem ofBits_eq_error {x : Result BitString} {f : Failure} : Response.ofBits x = .error f ↔ x = .error f := by
  cases x <;> simp [Response.ofBits]

theorem ofText_eq_error {x : Result Text} {f : Failure} : Response.ofText x = .error f ↔ x = .error f := by
  cases x <;> simp [Response.ofText]

theorem ofUnit_eq_error {x : Result Unit} {f : Failure} : Response.ofUnit x = .error f ↔ x = .error f := by
  cases x <;> simp [Response.ofUnit]

theorem ofText_eq_okText {x : Result Text} {u : Text} : Response.ofText x = .okText u ↔ x = .ok u := by
  cases x <;> simp [Response.ofText]

/-- A response that a host expecting successes of the given format can receive: such a success, or a failure. -/
def inFormat : Format → Response → Prop
  | .okBits, .okBits _ => True
  | .okText, .okText _ => True
  | .okNone, .okNone => True
  | _, .error _ => True
  | _, _ => False

theorem inFormat_ofBits (x : Result BitString) : inFormat .okBits (.ofBits x) := by
  cases x <;> trivial

theorem inFormat_ofText (x : Result Text) : inFormat .okText (.ofText x) := by
  cases x <;> trivial

theorem inFormat_ofUnit (x : Result Unit) : inFormat .okNone (.ofUnit x) := by
  cases x <;> trivial

/-- Every command succeeds in its own format only (R65). -/
theorem inFormat_answer (c : Config) (i : Instr) : inFormat (successFormat i.op) (answer c i) := by
  cases i with
  | enct _ | pars _ | xorv _ _ | encr _ _ => exact inFormat_ofBits _
  | dect _ | decr _ _ => exact inFormat_ofText _
  | rend _ => trivial
  | veql _ _ | vmul8 _ | vklen _ => exact inFormat_ofUnit _

theorem code_le_of_decodeText {b : BitString} {u : Text} (h : decodeText b = .ok u) : ∀ x ∈ u, x ≤ 255 := by
  obtain ⟨_, -, h⟩ := result_andThen_eq_ok h
  cases h
  exact groupValues_le _ _

theorem code_of_renderBitString {b : BitString} {x : Nat} (h : x ∈ renderBitString b) : x = 0x30 ∨ x = 0x31 := by
  obtain ⟨v, -, rfl⟩ := List.mem_map.mp h
  cases v <;> decide

/-- The Codes of a command's text result are single bytes: they are 8-bit groups or bit characters. -/
theorem code_le_of_answer {c : Config} {i : Instr} {u : Text} (h : answer c i = .okText u) : ∀ x ∈ u, x ≤ 255 := by
  have hformat := inFormat_answer c i
  rw [h] at hformat
  cases i with
  | dect a => exact code_le_of_decodeText (ofText_eq_okText.mp h)
  | rend a =>
    cases h
    intro x hx
    have := code_of_renderBitString hx
    omega
  | decr a d =>
    obtain ⟨_, -, h⟩ := result_andThen_eq_ok (ofText_eq_okText.mp h)
    exact code_le_of_decodeText h
  | enct _ | pars _ | xorv _ _ | encr _ _ | veql _ _ | vmul8 _ | vklen _ => exact hformat.elim

/-- Whatever failure is raised, its two numbers fit the `NUM` fields of an `ERR` frame. -/
def FailureFits {α : Type} (x : Result α) : Prop := ∀ f, x = .error f → f.e0 < 2 ^ 32 ∧ f.e1 < 2 ^ 32

theorem failureFits_raise {α : Type} {kind : Kind} {e0 e1 : Nat} (h0 : e0 < 2 ^ 32) (h1 : e1 < 2 ^ 32) :
    FailureFits (raise kind e0 e1 : Result α) := by
  rintro _ ⟨⟩
  exact ⟨h0, h1⟩

theorem failureFits_ok {α : Type} (v : α) : FailureFits (.ok v) := by
  rintro _ ⟨⟩

theorem FailureFits.andThen {α β : Type} {x : Result α} {k : α → Result β} (hx : FailureFits x)
    (hk : ∀ v, x = .ok v → FailureFits (k v)) : FailureFits (x.andThen k) := by
  cases x with
  | ok v => exact hk v rfl
  | error f => rintro _ ⟨⟩; exact hx f rfl

theorem failureFits_vEq {n m : Nat} (hn : n < 2 ^ 32) (hm : m < 2 ^ 32) : FailureFits (vEq n m) := by
  unfold vEq
  split
  · exact failureFits_raise hn hm
  · exact failureFits_ok ()

theorem failureFits_vMul8 {n : Nat} (hn : n < 2 ^ 32) : FailureFits (vMul8 n) := by
  unfold vMul8
  split
  · exact failureFits_raise hn (by decide)
  · exact failureFits_ok ()

theorem failureFits_vKeyLen {c : Config} {n : Nat} (hn : n < 2 ^ 32) (hc : c.maxKeyBits < 2 ^ 32) :
    FailureFits (vKeyLen c n) := by
  unfold vKeyLen
  split
  · exact failureFits_raise hn hc
  · exact failureFits_ok ()

theorem getElem?_of_firstBadFrom {bad : Nat → Bool} {j k x : Nat} {t : Text}
    (h : firstBadFrom bad j t = some (k, x)) : j ≤ k ∧ t[k - j]? = some x := by
  induction t generalizing j with
  | nil => cases h
  | cons y t ih =>
    unfold firstBadFrom at h
    split at h
    · cases h
      simp
    · obtain ⟨hle, hx⟩ := ih h
      obtain ⟨d, rfl⟩ := Nat.exists_eq_add_of_le hle
      refine ⟨by omega, ?_⟩
      rw [show j + 1 + d - j = d + 1 by omega, List.getElem?_cons_succ]
      simpa using hx

theorem wf_iff {c : Config} : c.wf = true ↔ 1 ≤ c.lenW ∧ c.lenW ≤ 32 ∧ 8 ≤ c.cpW ∧ c.cpW ≤ 32 ∧
    1 ≤ c.maxKeyBits ∧ c.maxKeyBits ≤ c.capBits ∧ 1 ≤ c.nPorts := by
  simp [Config.wf, and_assoc]

/-- Every width is at most that of a `NUM` field, and a Code has at least 8 bits (R8, R9). -/
theorem widths_of_wf {c : Config} (hc : c.wf = true) :
    2 ^ c.lenW ≤ 2 ^ 32 ∧ 2 ^ 8 ≤ 2 ^ c.cpW ∧ 2 ^ c.cpW ≤ 2 ^ 32 ∧ c.maxKeyBits < 2 ^ c.lenW := by
  obtain ⟨-, hlen, hcode, hcode', -, hkey, -⟩ := wf_iff.mp hc
  exact ⟨Nat.pow_le_pow_right (by decide) hlen, Nat.pow_le_pow_right (by decide) hcode,
    Nat.pow_le_pow_right (by decide) hcode', lt_of_le_capBits hkey⟩

/-- The position and the Code that a scan of a text reports fit a `NUM` field when the text fits a `TEXT` field. -/
theorem firstBad_lt {c : Config} (hc : c.wf = true) {bad : Nat → Bool} {t : Text} (ht : textFits c t = true)
    {k x : Nat} (h : firstBad bad t = some (k, x)) : k < 2 ^ 32 ∧ x < 2 ^ 32 := by
  obtain ⟨-, hx⟩ := getElem?_of_firstBadFrom h
  obtain ⟨hk, rfl⟩ := List.getElem?_eq_some_iff.mp hx
  obtain ⟨hlen, hcode⟩ := textFits_iff.mp ht
  obtain ⟨hlenW, -, hcpW, -⟩ := widths_of_wf hc
  exact ⟨(hk.trans hlen).trans_le hlenW, (hcode _ (List.getElem_mem hk)).trans_le hcpW⟩

theorem failureFits_encodeText {c : Config} (hc : c.wf = true) {t : Text} (ht : textFits c t = true) :
    FailureFits (encodeText t) := by
  unfold encodeText
  cases h : firstBad notSingleByte t with
  | none => exact failureFits_ok _
  | some found =>
    obtain ⟨hk, hx⟩ := firstBad_lt hc ht h
    exact failureFits_raise hk hx

theorem failureFits_parseBitString {c : Config} (hc : c.wf = true) {t : Text} (ht : textFits c t = true) :
    FailureFits (parseBitString t) := by
  unfold parseBitString
  cases h : firstBad notBitChar t with
  | none => exact failureFits_ok _
  | some found =>
    obtain ⟨hk, hx⟩ := firstBad_lt hc ht h
    exact failureFits_raise hk hx

theorem failureFits_decodeText {b : BitString} (hb : b.length < 2 ^ 32) : FailureFits (decodeText b) :=
  (failureFits_vMul8 hb).andThen fun _ _ => failureFits_ok _

theorem failureFits_apply {k x : BitString} (hk : k.length < 2 ^ 32) (hx : x.length < 2 ^ 32) :
    FailureFits (apply k x) :=
  (failureFits_vEq hk hx).andThen fun _ _ => failureFits_ok _

/-- The numbers of a well-formed command's failure fit their fields: they are lengths, positions and Codes of its
operands, the length of an encoding that is not too long (R70), or the bound on key lengths. -/
theorem failureFits_answer {c : Config} (hc : c.wf = true) {i : Instr} (h : i.wellFormed c = true) {f : Failure}
    (ha : answer c i = .error f) : f.e0 < 2 ^ 32 ∧ f.e1 < 2 ^ 32 := by
  simp only [Instr.wellFormed, Bool.and_eq_true] at h
  obtain ⟨hf, hl⟩ := h
  obtain ⟨hlenW, -, -, hkey⟩ := widths_of_wf hc
  have hbits {b : BitString} (hb : bitsFit c b = true) : b.length < 2 ^ 32 := (bitsFit_iff.mp hb).trans_le hlenW
  cases i with
  | enct t => exact failureFits_encodeText hc hf f (ofBits_eq_error.mp ha)
  | dect a => exact failureFits_decodeText (hbits hf) f (ofText_eq_error.mp ha)
  | pars t => exact failureFits_parseBitString hc hf f (ofBits_eq_error.mp ha)
  | rend a => cases ha
  | xorv a d =>
    obtain ⟨hfa, hfd⟩ := (Bool.and_eq_true _ _).mp hf
    exact failureFits_apply (hbits hfa) (hbits hfd) f (ofBits_eq_error.mp ha)
  | encr a t =>
    obtain ⟨hfa, hft⟩ := (Bool.and_eq_true _ _).mp hf
    refine (failureFits_encodeText hc hft).andThen (fun e he => ?_) f (ofBits_eq_error.mp ha)
    obtain ⟨-, rfl⟩ := encodeText_inv he
    refine failureFits_apply (hbits hfa) (hbits (decide_eq_true ?_))
    rw [length_flatMap_bitsOf, Nat.mul_comm]
    exact of_decide_eq_true hl
  | decr a d =>
    obtain ⟨hfa, hfd⟩ := (Bool.and_eq_true _ _).mp hf
    refine (failureFits_apply (hbits hfa) (hbits hfd)).andThen (fun x hx => ?_) f (ofText_eq_error.mp ha)
    exact failureFits_decodeText ((length_le_of_apply hx).trans_lt (hbits hfa))
  | veql n m =>
    obtain ⟨hn, hm⟩ := (Bool.and_eq_true _ _).mp hf
    exact failureFits_vEq (of_decide_eq_true hn) (of_decide_eq_true hm) f (ofUnit_eq_error.mp ha)
  | vmul8 n => exact failureFits_vMul8 (of_decide_eq_true hf) f (ofUnit_eq_error.mp ha)
  | vklen n =>
    exact failureFits_vKeyLen (of_decide_eq_true hf) (hkey.trans_le hlenW) f (ofUnit_eq_error.mp ha)

/-- Settles O12: the layouts are the serialiser's, and the bounds those of the result, its Codes and the failure. -/
theorem responsesAreLaidOutAndFit : Obligations.ResponsesAreLaidOutAndFit := by
  intro c
  refine ⟨fun _ => (List.append_assoc _ _ _).symm, fun _ => (List.append_assoc _ _ _).symm, rfl,
    fun f => ⟨rfl, by cases f.kind <;> decide⟩, fun hc i h => ⟨fun r hr => ?_, fun u hu => ⟨?_, code_le_of_answer hu⟩,
      fun f => failureFits_answer hc h⟩⟩
  · simpa only [hr, resultFits] using resultFits_answer h
  · simpa only [hu, resultFits] using resultFits_answer h

/-! ## The host's reader -/

/-- A reader of the front of a bit stream: what it has found does not change when more bits follow, and while it
waits it asks for at least one more bit. -/
structure ReadsFront {α : Type} (g : BitString → Got α) : Prop where
  found : ReadsPrefix g
  asks : ∀ b k, g b = .short k → 0 < k

theorem readsFront_got {α : Type} (v : α) : ReadsFront (Got.got v) :=
  ⟨fun _ _ _ _ h => by cases h; rfl, fun _ _ h => by cases h⟩

theorem readsFront_takeBits (n : Nat) : ReadsFront (takeBits n) where
  found b v r x h := by
    obtain ⟨rfl, hv⟩ := takeBits_got h
    rw [List.append_assoc, takeBits_append hv]
  asks b k h := by
    have hlt := length_lt_of_takeBits_short h
    rw [takeBits_short hlt] at h
    cases h
    omega

/-- A field and then, by its value, a further one. -/
theorem ReadsFront.andThen {α β : Type} {g : BitString → Got α} {k : α → BitString → Got β}
    (hg : ReadsFront g) (hk : ∀ v, ReadsFront (k v)) : ReadsFront fun b => (g b).andThen k where
  found b v r x h := by
    cases hb : g b with
    | short n => simp [hb, Got.andThen] at h
    | got u r' =>
      simp only [hb, Got.andThen] at h
      simp only [hg.found b u r' x hb, Got.andThen]
      exact (hk u).found r' v r x h
  asks b n h := by
    cases hb : g b with
    | short m =>
      simp only [hb, Got.andThen, Got.short.injEq] at h
      exact h ▸ hg.asks b m hb
    | got u r' =>
      simp only [hb, Got.andThen] at h
      exact (hk u).asks r' n h

theorem got_map_eq_andThen {α β : Type} (f : α → β) (g : Got α) : g.map f = g.andThen fun v => .got (f v) := by
  cases g <;> rfl

theorem ReadsFront.map {α β : Type} {g : BitString → Got α} (hg : ReadsFront g) (f : α → β) :
    ReadsFront fun b => (g b).map f := by
  simpa only [got_map_eq_andThen] using hg.andThen fun v => readsFront_got (f v)

theorem readsFront_readNumber (w : Nat) : ReadsFront (readNumber w) := (readsFront_takeBits w).map uint

theorem readsFront_readBits (c : Config) : ReadsFront (readBits c) :=
  (readsFront_readNumber c.lenW).andThen readsFront_takeBits

theorem readsFront_readText (c : Config) : ReadsFront (readText c) :=
  (readsFront_readNumber c.lenW).andThen fun n => (readsFront_takeBits (n * c.cpW)).map (groupValues c.cpW n)

theorem readsFront_readFailure (kind : Kind) : ReadsFront (readFailure kind) :=
  (readsFront_readNumber numW).andThen fun _ => (readsFront_readNumber numW).map _

theorem readsFront_readSuccess (c : Config) (op : Op) : ReadsFront (readSuccess c op) := by
  unfold readSuccess
  cases successFormat op with
  | okBits => exact (readsFront_readBits c).map _
  | okText => exact (readsFront_readText c).map _
  | okNone => exact readsFront_got _

theorem readsFront_readResponse (c : Config) (op : Op) : ReadsFront (readResponse c op) := by
  refine (readsFront_readNumber 8).andThen fun status => ?_
  by_cases hok : status = statusOk
  · simpa only [if_pos hok] using readsFront_readSuccess c op
  · simp only [if_neg hok]
    cases kindOfStatus status with
    | some kind => exact readsFront_readFailure kind
    | none => exact readsFront_got none

/-- What reads as a whole leaves the reader waiting on every proper initial part: were a part enough, the missing
bits would be left over. -/
theorem ReadsFront.short_of_take {α : Type} {g : BitString → Got α} (hg : ReadsFront g) {b : BitString} {v : α}
    (h : g b = .got v []) {n : Nat} (hn : n < b.length) : ∃ need, 0 < need ∧ g (b.take n) = .short need := by
  cases ht : g (b.take n) with
  | short need => exact ⟨need, hg.asks _ _ ht, rfl⟩
  | got u r =>
    have hmore := hg.found _ _ _ (b.drop n) ht
    rw [List.take_append_drop, h] at hmore
    have hrest : b.drop n ≠ [] := by simpa using hn
    simp [hrest] at hmore

theorem readResponse_ok {c : Config} {op : Op} (b : BitString) :
    readResponse c op (bitsOf 8 statusOk ++ b) = readSuccess c op b := by
  rw [readResponse, readNumber_append (by decide)]
  rfl

@[simp] theorem kindOfStatus_code (kind : Kind) : kindOfStatus kind.code = some kind := by
  cases kind <;> rfl

theorem code_ne_statusOk (kind : Kind) : kind.code ≠ statusOk := by
  cases kind <;> decide

theorem kind_code_lt (kind : Kind) : kind.code < 2 ^ 8 := by
  cases kind <;> decide

/-- An `ERR` frame is read back whatever was sent (R66). -/
theorem readResponse_error {c : Config} {op : Op} {f : Failure} (h0 : f.e0 < 2 ^ 32) (h1 : f.e1 < 2 ^ 32)
    (rest : BitString) :
    readResponse c op (encodeResponse c (.error f) ++ rest) = .got (some (.error f)) rest := by
  simp only [readResponse, encodeResponse, List.append_assoc, readNumber_append (kind_code_lt f.kind), Got.andThen,
    if_neg (code_ne_statusOk f.kind), kindOfStatus_code, readFailure, readNum_append h0, readNum_append h1, Got.map]

/-- A response in the format of the command sent, with fields that fit, is read back (R65, R66). -/
theorem readResponse_encodeResponse {c : Config} {op : Op} {r : Response} (hformat : inFormat (successFormat op) r)
    (hresult : resultFits c r) (hcodes : ∀ u, r = .okText u → ∀ x ∈ u, x < 2 ^ c.cpW)
    (hfailure : ∀ f, r = .error f → f.e0 < 2 ^ 32 ∧ f.e1 < 2 ^ 32) (rest : BitString) :
    readResponse c op (encodeResponse c r ++ rest) = .got (some r) rest := by
  cases r with
  | error f => exact readResponse_error (hfailure f rfl).1 (hfailure f rfl).2 rest
  | okBits b =>
    rw [encodeResponse, List.append_assoc, readResponse_ok, readSuccess]
    cases hop : successFormat op with
    | okBits => simp only [readBits_append (decide_eq_true hresult : bitsFit c b = true), Got.map]
    | okText | okNone => rw [hop] at hformat; exact hformat.elim
  | okText u =>
    have hfits : textFits c u = true := textFits_iff.mpr ⟨lt_of_le_capBits hresult, hcodes u rfl⟩
    rw [encodeResponse, List.append_assoc, readResponse_ok, readSuccess]
    cases hop : successFormat op with
    | okText => simp only [readText_append hfits, Got.map]
    | okBits | okNone => rw [hop] at hformat; exact hformat.elim
  | okNone =>
    rw [encodeResponse, readResponse_ok, readSuccess]
    cases hop : successFormat op with
    | okNone => rfl
    | okBits | okText => rw [hop] at hformat; exact hformat.elim

theorem readResponse_answer {c : Config} (hc : c.wf = true) {i : Instr} (h : i.wellFormed c = true)
    (rest : BitString) :
    readResponse c i.op (encodeResponse c (answer c i) ++ rest) = .got (some (answer c i)) rest := by
  obtain ⟨-, hcpW, -, -⟩ := widths_of_wf hc
  refine readResponse_encodeResponse (inFormat_answer c i) (resultFits_answer h) (fun u hu x hx => ?_)
    (fun f => failureFits_answer hc h) rest
  have := code_le_of_answer hu x hx
  omega

/-- A text's count announces a BitString of that many bits, and its Codes have more bits than that (R9). -/
theorem okText_begins_with_okBits {c : Config} (hc : c.wf = true) (u : Text) :
    ∃ (r more : BitString), r.length = u.length ∧
      encodeResponse c (.okText u) = encodeResponse c (.okBits r) ++ more := by
  obtain ⟨-, -, hcode, -⟩ := wf_iff.mp hc
  have hlen : ((u.flatMap (bitsOf c.cpW)).take u.length).length = u.length := by
    rw [List.length_take, length_flatMap_bitsOf]
    exact min_eq_left (Nat.le_mul_of_pos_right _ (by omega))
  refine ⟨_, (u.flatMap (bitsOf c.cpW)).drop u.length, hlen, ?_⟩
  simp only [encodeResponse_ok_text, encodeResponse_ok_bits, hlen, List.append_assoc, List.take_append_drop]

/-- Settles O42: a whole response is read back, so that a part of one leaves the reader waiting. -/
theorem responseFramesReadBack : Obligations.ResponseFramesReadBack := by
  refine ⟨fun c i rest hc h => ⟨readResponse_answer hc h rest, fun n hn => ?_⟩,
    fun c op reason value rest hr hv => readResponse_error (f := ⟨.illegalCommand, reason, value⟩) hr hv rest,
    fun c u hc => okText_begins_with_okBits hc u⟩
  have hwhole := readResponse_answer hc h []
  rw [List.append_nil] at hwhole
  exact (readsFront_readResponse c i.op).short_of_take hwhole hn

/-! ## The lengths of frames -/

/-- The length of a command's frame is the one of the table of R61. -/
theorem length_encode (c : Config) (i : Instr) : (encode c i).length = frameLength c i := by
  cases i with
  | enct t => exact (Laws.EncodingShape.enct t c).2.2
  | dect a => exact (Laws.EncodingShape.dect a c).2.2
  | pars t => exact (Laws.EncodingShape.pars t c).2.2
  | rend a => exact (Laws.EncodingShape.rend a c).2.2
  | xorv a d => exact (Laws.EncodingShape.xorv a d c).2.2
  | encr a t => exact (Laws.EncodingShape.encr a t c).2.2
  | decr a d => exact (Laws.EncodingShape.decr a d c).2.2
  | veql n m => exact (Laws.EncodingShape.veql n m c).2.2
  | vmul8 n => exact (Laws.EncodingShape.vmul8 n c).2.2
  | vklen n => exact (Laws.EncodingShape.vklen n c).2.2

/-- Every format has at least one length field, or a `NUM`, which is no shorter (R8, R61). -/
theorem le_length_encode {c : Config} (hc : c.wf = true) (i : Instr) : 8 + c.lenW ≤ (encode c i).length := by
  obtain ⟨-, hlen, -⟩ := wf_iff.mp hc
  rw [length_encode]
  cases i <;> simp only [frameLength] <;> omega

/-- A frame without its last bit is one the parser waits on. -/
theorem length_encode_le {c : Config} (hc : c.wf = true) {i : Instr} (h : i.wellFormed c = true) :
    (encode c i).length ≤ longestFrame c := by
  have hpos : 0 < (encode c i).length := by simp [encode]
  have hwait := length_lt_of_parse_incomplete hc (parse_take_encode h (Nat.sub_lt hpos one_pos))
  rw [List.length_take] at hwait
  omega

theorem le_length_encodeResponse (c : Config) (r : Response) : 8 ≤ (encodeResponse c r).length := by
  cases r <;> simp

theorem length_encodeResponse_rend (c : Config) (a : BitString) :
    (encodeResponse c (answer c (.rend a))).length = 8 + c.lenW + a.length * c.cpW := by
  rw [answer, answerRend, encodeResponse_ok_text, List.length_append, List.length_append, length_bitsOf,
    length_bitsOf, length_flatMap_bitsOf, renderBitString, List.length_map, Nat.add_assoc]

/-! ### Well-formed commands, format by format -/

section
variable {c : Config} {a b : BitString} {t : Text} {n : Nat}

theorem wellFormed_enct (ht : textFits c t = true) (he : encodable c t.length = true) :
    (Instr.enct t).wellFormed c = true :=
  (Bool.and_eq_true _ _).mpr ⟨ht, he⟩

theorem wellFormed_pars (ht : textFits c t = true) : (Instr.pars t).wellFormed c = true :=
  (Bool.and_eq_true _ _).mpr ⟨ht, rfl⟩

theorem wellFormed_rend (ha : bitsFit c a = true) : (Instr.rend a).wellFormed c = true :=
  (Bool.and_eq_true _ _).mpr ⟨ha, rfl⟩

theorem wellFormed_encr (ha : bitsFit c a = true) (ht : textFits c t = true) (he : encodable c t.length = true) :
    (Instr.encr a t).wellFormed c = true :=
  (Bool.and_eq_true _ _).mpr ⟨(Bool.and_eq_true _ _).mpr ⟨ha, ht⟩, he⟩

theorem wellFormed_decr (ha : bitsFit c a = true) (hb : bitsFit c b = true) :
    (Instr.decr a b).wellFormed c = true :=
  (Bool.and_eq_true _ _).mpr ⟨(Bool.and_eq_true _ _).mpr ⟨ha, hb⟩, rfl⟩

theorem wellFormed_vklen (hn : n < 2 ^ 32) : (Instr.vklen n).wellFormed c = true :=
  (Bool.and_eq_true _ _).mpr ⟨decide_eq_true hn, rfl⟩

end

/-- Settles O43: the bounds, then the frames that attain them. -/
theorem frameLengthBounds : Obligations.FrameLengthBounds := by
  refine ⟨fun c hc => ⟨fun i h => ?_, ?_, ?_, fun t ht hx => ?_, rfl, length_encode c _, rfl, rfl, rfl,
    fun a ha => ?_⟩, rfl, by decide, by decide⟩
  · exact ⟨le_length_encode hc i, length_encode_le hc h, le_length_encodeResponse c _,
      length_encodeResponse_le hc (resultFits_answer h)⟩
  · exact wellFormed_enct (by simp [textFits]) (by simp [encodable])
  · rw [length_encode, frameLength, List.length_nil, Nat.zero_mul, Nat.add_zero]
  · exact ⟨wellFormed_pars (textFits_iff.mpr ⟨lt_of_le_capBits ht.le, hx⟩),
      by rw [length_encode, frameLength, ht]⟩
  · exact ⟨wellFormed_rend (decide_eq_true ha.le), by rw [length_encodeResponse_rend, ha]⟩

/-! ## Host scripts -/

/-- A command that some frame carries is answered by its own answer. -/
theorem submit_of_wellFormed {c : Config} {i : Instr} (h : i.wellFormed c = true) :
    submit c i = some (answer c i) := by
  obtain ⟨hf, hl⟩ := (Bool.and_eq_true _ _).mp h
  rw [submit, if_pos hf, if_pos hl]

/-- What a script does with the response to a command line (R74). -/
def afterResponse (c : Config) (keys : List BitString) (vars : HostVars) (dst : Option String)
    (rest : List ScriptLine) : Option Response → ScriptEnd
  | none => .notAScript
  | some (.error f) => .failed f
  | some r => runScript c keys (bindResult vars dst r) rest

section
variable {c : Config} {keys : List BitString} {vars : HostVars} {dst : Option String} {op : Op} {args : List Arg}
  {rest : List ScriptLine}

theorem runScript_command :
    runScript c keys vars (.command dst op args :: rest) =
      afterResponse c keys vars dst rest ((commandOf vars op args).bind (submit c)) := by
  rw [runScript]
  rcases (commandOf vars op args).bind (submit c) with _ | ⟨_ | _ | _ | _⟩ <;> rfl

/-- A line with a command that some frame carries goes on by its answer. -/
theorem runScript_command_of_wellFormed {i : Instr} (hi : commandOf vars op args = some i)
    (h : i.wellFormed c = true) :
    runScript c keys vars (.command dst op args :: rest) =
      afterResponse c keys vars dst rest (some (answer c i)) := by
  rw [runScript_command, hi, Option.bind_some, submit_of_wellFormed h]

theorem runScript_okBits {i : Instr} {x : String} {b : BitString} (hi : commandOf vars op args = some i)
    (h : i.wellFormed c = true) (ha : answer c i = .okBits b) :
    runScript c keys vars (.command (some x) op args :: rest) = runScript c keys ((x, .bits b) :: vars) rest := by
  rw [runScript_command_of_wellFormed hi h, ha]
  rfl

theorem runScript_okText {i : Instr} {x : String} {t : Text} (hi : commandOf vars op args = some i)
    (h : i.wellFormed c = true) (ha : answer c i = .okText t) :
    runScript c keys vars (.command (some x) op args :: rest) = runScript c keys ((x, .text t) :: vars) rest := by
  rw [runScript_command_of_wellFormed hi h, ha]
  rfl

theorem runScript_nil : runScript c keys vars [] = .finished vars := by
  cases keys <;> rfl

theorem runScript_keysource_bad {x : String} {len : Nat} {f : Failure} (h : vKeyLen c len = .error f) :
    runScript c keys vars (.keysource x len :: rest) = .failed f := by
  cases keys <;> simp only [runScript, h]

theorem runScript_keysource_none {x : String} {len : Nat} (h : vKeyLen c len = .ok ()) :
    runScript c [] vars (.keysource x len :: rest) = .notAScript := by
  simp only [runScript, h]

theorem runScript_keysource {x : String} {len : Nat} (h : vKeyLen c len = .ok ()) (k : BitString) :
    runScript c (k :: keys) vars (.keysource x len :: rest) =
      if k.length = len then runScript c keys ((x, .bits k) :: vars) rest else .notAScript := by
  simp only [runScript, h]

end

/-- Settles O57, by induction over the lines before the failure, with the variables and keys each of them leaves. -/
theorem scriptStopsAtFirstFailure : Obligations.ScriptStopsAtFirstFailure := by
  intro c keys vars done rest f name h
  suffices hstop : runScript c keys vars (done ++ rest) = .failed f from ⟨hstop, by rw [hstop]; rfl⟩
  induction done generalizing keys vars with
  | nil => rw [runScript_nil] at h; cases h
  | cons line done ih =>
    rw [List.cons_append]
    cases line with
    | command dst op args =>
      rw [runScript_command] at h ⊢
      cases hr : (commandOf vars op args).bind (submit c) with
      | none => rw [hr] at h; cases h
      | some r =>
        rw [hr] at h
        cases r with
        | okBits _ | okText _ | okNone => exact ih _ _ h
        | error _ => exact h
    | keysource x len =>
      cases hv : vKeyLen c len with
      | error e => rwa [runScript_keysource_bad hv] at h ⊢
      | ok _ =>
        cases keys with
        | nil => rw [runScript_keysource_none hv] at h; cases h
        | cons k keys =>
          rw [runScript_keysource hv] at h ⊢
          split at h
          · next hk => rw [if_pos hk]; exact ih _ _ h
          · cases h

/-- Settles O56: `VKLEN` decides, by the check that the key source makes too, and `REND` writes the key drawn. -/
theorem keygenScriptWritesDrawnKey : Obligations.KeygenScriptWritesDrawnKey := by
  intro c len key hc hlen hkey
  obtain ⟨-, -, -, -, -, hmax, -⟩ := wf_iff.mp hc
  have hvklen : (Instr.vklen len).wellFormed c = true := wellFormed_vklen hlen
  have hcheck := runScript_command_of_wellFormed (vars := []) (keys := [key]) (dst := none)
    (rest := (keygenScript len).tail) (rfl : commandOf [] .vklen [.num len] = some (.vklen len)) hvklen
  constructor
  · intro hlegal
    have hv := vKeyLen_ok hlegal
    have hkeyfits : bitsFit c key = true := decide_eq_true (hkey ▸ hlegal.2.trans hmax)
    have hrun : runScript c [key] [] (keygenScript len) =
        .finished [("kt", .text (renderBitString key)), ("k", .bits key)] := by
      refine hcheck.trans ?_
      rw [answer, answerVklen, hv]
      refine (runScript_keysource hv key).trans ?_
      rw [if_pos hkey]
      exact (runScript_okText rfl (wellFormed_rend hkeyfits) rfl).trans runScript_nil
    refine ⟨renderBitString key, by rw [hrun]; rfl, by rw [renderBitString, List.length_map, hkey],
      fun j x hx => ?_⟩
    rw [renderBitString, List.getElem?_map, hx]
    cases x <;> rfl
  · intro hbad
    have hrun : runScript c [key] [] (keygenScript len) = .failed ⟨.invalidLength, len, c.maxKeyBits⟩ := by
      refine hcheck.trans ?_
      rw [answer, answerVklen, vKeyLen_bad hbad]
      rfl
    exact ⟨hrun, by rw [hrun]; rfl⟩

theorem parseBitString_renderBitString (b : BitString) : parseBitString (renderBitString b) = .ok b := by
  rw [parseBitString_ok fun x => code_of_renderBitString, renderBitString, List.map_map]
  congr 1
  refine List.map_id'' (fun x => ?_) b
  cases x <;> rfl

/-- The key taken off twice (R142). -/
theorem zipWith_xorBit_cancel {k x : BitString} (h : k.length = x.length) :
    List.zipWith xorBit k (List.zipWith xorBit k x) = x := by
  induction k generalizing x with
  | nil => exact (List.length_eq_zero_iff.mp h.symm).symm
  | cons a k ih =>
    cases x with
    | nil => cases h
    | cons b x => simp [ih (Nat.succ.inj h)]

/-- With a key of the encoding's length a text of single bytes is encrypted, and decryption gives it back (R148). -/
theorem exists_encrypt_decrypt {k : BitString} {t : Text} (ht : ∀ x ∈ t, x ≤ 255) (hk : k.length = 8 * t.length) :
    ∃ y, encrypt k t = .ok y ∧ y.length = k.length ∧ decrypt k y = .ok t := by
  have hx : k.length = (t.flatMap (bitsOf 8)).length := by rw [length_flatMap_bitsOf, hk, Nat.mul_comm]
  have hy : (List.zipWith xorBit k (t.flatMap (bitsOf 8))).length = k.length := by
    rw [List.length_zipWith, ← hx, min_self]
  have hdecode : decodeText (t.flatMap (bitsOf 8)) = .ok t := by
    rw [decodeText_ok (by simp), length_flatMap_bitsOf, Nat.mul_div_cancel _ (by decide)]
    simpa using groupValues_flatMap (w := 8) (fun x hx => Nat.lt_succ_of_le (ht x hx)) []
  exact ⟨_, by rw [encrypt_eq ht, apply_ok hx], hy, by rw [decrypt_eq hy.symm, zipWith_xorBit_cancel hx, hdecode]⟩

/-- A text of single bytes, not longer than `CAP_BITS`, fits a `TEXT` field of every legal configuration (R9). -/
theorem textFits_of_bytes {c : Config} (hc : c.wf = true) {t : Text} (hlen : t.length ≤ c.capBits)
    (ht : ∀ x ∈ t, x ≤ 255) : textFits c t = true := by
  obtain ⟨-, hcode, -, -⟩ := widths_of_wf hc
  exact textFits_iff.mpr ⟨lt_of_le_capBits hlen, fun x hx => (Nat.lt_succ_of_le (ht x hx)).trans_le hcode⟩

/-- A file of the characters 0 and 1 becomes, by `PARS` with a variable, the BitString it writes (R77). -/
theorem runScript_pars {c : Config} (hc : c.wf = true) {keys : List BitString} {vars : HostVars} {x : String}
    {rest : List ScriptLine} {file : Text} {b : BitString} (hfile : ∀ x ∈ file, x = 0x30 ∨ x = 0x31)
    (hlen : file.length ≤ c.capBits) (hb : parseBitString file = .ok b) :
    runScript c keys vars (.command (some x) .pars [.text file] :: rest) =
      runScript c keys ((x, .bits b) :: vars) rest := by
  have hfits : textFits c file = true := textFits_of_bytes hc hlen fun x hx => by
    have := hfile x hx
    omega
  exact runScript_okBits (i := .pars file) rfl (wellFormed_pars hfits) (by rw [answer, answerPars, hb]; rfl)

/-- Settles O55, line by line: both scripts parse the key; `enc` encrypts and renders, `dec` parses that and
decrypts. -/
theorem encThenDecScriptsGivePlaintextBack : Obligations.EncThenDecScriptsGivePlaintextBack := by
  intro c keyFile plaintextFile hc hkey hplain hlen hcap
  obtain ⟨k, hk, hklen⟩ : ∃ k, parseBitString keyFile = .ok k ∧ k.length = keyFile.length :=
    ⟨_, parseBitString_ok hkey, List.length_map _⟩
  obtain ⟨y, henc, hylen, hdec⟩ := exists_encrypt_decrypt hplain (hklen.trans hlen)
  have hct : (renderBitString y).length = keyFile.length := by rw [renderBitString, List.length_map, hylen, hklen]
  have hkfits : bitsFit c k = true := decide_eq_true (hklen.trans_le hcap)
  have hyfits : bitsFit c y = true := decide_eq_true (hylen.trans_le (hklen.trans_le hcap))
  have hpfits : textFits c plaintextFile = true := textFits_of_bytes hc (by omega) hplain
  have hencodable : encodable c plaintextFile.length = true := decide_eq_true (hlen ▸ hcap)
  have hencr : answer c (.encr k plaintextFile) = .okBits y := by rw [answer, answerEncr, henc]; rfl
  have hdecr : answer c (.decr k y) = .okText plaintextFile := by rw [answer, answerDecr, hdec]; rfl
  have hencRun : runScript c [] [] (encScript keyFile plaintextFile) =
      .finished [("ct", .text (renderBitString y)), ("c", .bits y), ("k", .bits k)] :=
    calc runScript c [] [] (encScript keyFile plaintextFile)
      _ = runScript c [] [("k", .bits k)] (encScript keyFile plaintextFile).tail := runScript_pars hc hkey hcap hk
      _ = runScript c [] [("c", .bits y), ("k", .bits k)] [.command (some "ct") .rend [.var "c"]] :=
        runScript_okBits rfl (wellFormed_encr hkfits hpfits hencodable) hencr
      _ = _ := (runScript_okText rfl (wellFormed_rend hyfits) rfl).trans runScript_nil
  have hdecRun : runScript c [] [] (decScript keyFile (renderBitString y)) =
      .finished [("p", .text plaintextFile), ("c", .bits y), ("k", .bits k)] :=
    calc runScript c [] [] (decScript keyFile (renderBitString y))
      _ = runScript c [] [("k", .bits k)] (decScript keyFile (renderBitString y)).tail :=
        runScript_pars hc hkey hcap hk
      _ = runScript c [] [("c", .bits y), ("k", .bits k)] [.command (some "p") .decr [.var "k", .var "c"]] :=
        runScript_pars hc (fun _ => code_of_renderBitString) (hct.trans_le hcap) (parseBitString_renderBitString y)
      _ = _ := (runScript_okText rfl (wellFormed_decr hkfits hyfits) hdecr).trans runScript_nil
  exact ⟨renderBitString y, by rw [hencRun]; rfl, fun _ => code_of_renderBitString, hct, by rw [hdecRun]; rfl⟩

end Sys2Proof.Proofs
end

section
/-! The statements of the codec (spec/40_codec.md): the laws of its four functions, then the four commands, each on a
port that exists. -/

namespace Sys2Proof.Proofs
open Sys2Proof Sys2Proof.Machine

/-! ## A command's answer, placed on its port in the layout of R66 -/

section
variable {s : State} {p : Port} {i : Instr} (hp : s.ports[s.cur]? = some p)
include hp

theorem exec_of_answer_okBits {r : BitString} (h : answer s.cfg i = .okBits r) :
    exec i s = .next (answered s p (okBitsFrame s.cfg r)) := by
  rw [exec_eq hp, h, encodeResponse_ok_bits, ← List.append_assoc]
  rfl

theorem exec_of_answer_okText {u : Text} (h : answer s.cfg i = .okText u) :
    exec i s = .next (answered s p (okTextFrame s.cfg u)) := by
  rw [exec_eq hp, h, encodeResponse_ok_text, ← List.append_assoc]
  rfl

theorem exec_of_answer_error {f : Failure} (h : answer s.cfg i = .error f) :
    exec i s = .next (answered s p (errFrame f.kind.code f.e0 f.e1)) := by
  rw [exec_eq hp, h]
  rfl

end

/-! ## The laws of the four functions -/

/-- What `decodeText` gives, by its inverse: the Codes whose 8-bit groups, written out, are the BitString (R92). -/
theorem exists_decodeText {b : BitString} (h : b.length % 8 = 0) :
    ∃ u, decodeText b = .ok u ∧ u.length = b.length / 8 ∧ (∀ x ∈ u, x ≤ 255) ∧ u.flatMap (bitsOf 8) = b :=
  ⟨_, decodeText_ok h, length_groupValues _ _ _, groupValues_le _ _, flatMap_groupValues (by omega)⟩

theorem decodeText_flatMap_bitsOf {t : Text} (h : ∀ x ∈ t, x ≤ 255) : decodeText (t.flatMap (bitsOf 8)) = .ok t := by
  rw [decodeText_ok (by simp), length_flatMap_bitsOf, Nat.mul_div_cancel _ (by decide)]
  simpa using groupValues_flatMap (w := 8) (fun x hx => Nat.lt_succ_of_le (h x hx)) []

theorem length_encodeText {t : Text} {b : BitString} (h : encodeText t = .ok b) : b.length = 8 * t.length := by
  obtain ⟨-, rfl⟩ := encodeText_inv h
  rw [length_flatMap_bitsOf, Nat.mul_comm]

theorem length_parseBitString {t : Text} {b : BitString} (h : parseBitString t = .ok b) : b.length = t.length := by
  obtain ⟨-, rfl⟩ := parseBitString_inv h
  exact List.length_map _

theorem length_renderBitString (b : BitString) : (renderBitString b).length = b.length := List.length_map _

theorem getElem?_renderBitString {b : BitString} {j : Nat} {x : Bit} (h : b[j]? = some x) :
    (renderBitString b)[j]? = some (if x then 0x31 else 0x30) := by
  rw [renderBitString, List.getElem?_map, h]
  cases x <;> rfl

/-- The bits that `parseBitString` gives for a text of bit characters are rendered as that text (R98). -/
theorem renderBitString_map_eq_one {t : Text} (h : ∀ x ∈ t, x = 0x30 ∨ x = 0x31) :
    renderBitString (t.map fun x => x == 0x31) = t := by
  rw [renderBitString, List.map_map]
  refine (List.map_congr_left fun x hx => ?_).trans (List.map_id t)
  rcases h x hx with rfl | rfl <;> rfl

/-- Settles O46, one length law for each of the four functions. -/
theorem codecLengthLaws : Obligations.CodecLengthLaws := by
  refine ⟨fun _ _ => length_encodeText, fun b hb => ?_, fun _ _ => length_parseBitString,
    fun b => ⟨length_renderBitString b, fun _ => code_of_renderBitString⟩⟩
  obtain ⟨u, hu, hlen, hcodes, -⟩ := exists_decodeText hb
  exact ⟨u, hu, hlen, hcodes⟩

/-- Settles O47: reading the groups of 8 bits and writing them out undo each other. -/
theorem encodeDecodeTextInverse : Obligations.EncodeDecodeTextInverse := by
  constructor
  · intro t ht
    exact ⟨_, encodeText_ok ht, decodeText_flatMap_bitsOf ht⟩
  · intro b hb
    obtain ⟨u, hu, -, hcodes, hbits⟩ := exists_decodeText hb
    exact ⟨u, hu, hcodes, by rw [encodeText_ok hcodes, hbits]⟩

/-- Settles O48: rendering and parsing undo each other, character by character. -/
theorem renderParseInverse : Obligations.RenderParseInverse :=
  ⟨parseBitString_renderBitString, fun _ ht => ⟨_, parseBitString_ok ht, renderBitString_map_eq_one ht⟩⟩

/-- Settles O49: a text of bit characters is one of single bytes, so both functions succeed; the lengths are their
length laws. -/
theorem twoTextFormsDiffer : Obligations.TwoTextFormsDiffer := by
  refine ⟨fun t ht => ?_, encodeText_ok (by decide), parseBitString_ok (by decide)⟩
  have hbytes : ∀ x ∈ t, x ≤ 255 := fun x hx => by
    have := ht x hx
    omega
  have hencode := encodeText_ok hbytes
  have hparse := parseBitString_ok ht
  exact ⟨_, _, hencode, hparse, length_encodeText hencode, length_parseBitString hparse⟩

/-! ## The four commands -/

/-- A frame that ends in a `TEXT` field, with the count and the Codes written apart (R61). -/
theorem append_writeText (c : Config) (b : BitString) (t : Text) :
    b ++ writeText c t = b ++ bitsOf c.lenW t.length ++ t.flatMap (bitsOf c.cpW) :=
  (List.append_assoc _ _ _).symm

/-- A frame that ends in a `BITS` field, with the length and the bits written apart (R61). -/
theorem append_writeBits (c : Config) (b a : BitString) : b ++ writeBits c a = b ++ bitsOf c.lenW a.length ++ a :=
  (List.append_assoc _ _ _).symm

/-- Settles O1: the two outcomes of `encodeText`; bit `k` of Code `j` stands at position `8j + k`. -/
theorem enctEncodesText : Obligations.EnctEncodesText := by
  intro s p t hp
  refine ⟨append_writeText _ _ _, fun ht => ?_, fun j x hx hbad hlow => ?_⟩
  · have hencode := encodeText_ok ht
    exact ⟨_, length_encodeText hencode, fun j x k hj hk => getElem?_flatMap_bitsOf hj hk,
      exec_of_answer_okBits hp (congrArg Response.ofBits hencode)⟩
  · exact exec_of_answer_error (f := ⟨.encoding, j, x⟩) hp
      (congrArg Response.ofBits (encodeText_bad hx hbad hlow))

/-- Settles O2: the two outcomes of `decodeText`; the bits of Code `j` are read off the text written out again. -/
theorem dectDecodesGroups : Obligations.DectDecodesGroups := by
  intro s p a hp
  refine ⟨append_writeBits _ _ _, fun ha => ?_, fun ha => ?_⟩
  · obtain ⟨u, hu, hlen, hcodes, hbits⟩ := exists_decodeText ha
    refine ⟨u, hlen, fun j x hj => ⟨hcodes x (List.mem_of_getElem? hj), fun k hk => ?_⟩,
      exec_of_answer_okText hp (congrArg Response.ofText hu)⟩
    rw [← hbits]
    exact getElem?_flatMap_bitsOf hj hk
  · exact exec_of_answer_error (f := ⟨.malformedLength, a.length, 0⟩) hp
      (congrArg Response.ofText (decodeText_bad ha))

/-- Settles O3: the two outcomes of `parseBitString`. -/
theorem parsParsesBitText : Obligations.ParsParsesBitText := by
  intro s p t hp
  refine ⟨append_writeText _ _ _, fun ht => ?_, fun j x hx h0 h1 hlow => ?_⟩
  · refine ⟨_, List.length_map _, fun j x hj => ?_,
      exec_of_answer_okBits hp (congrArg Response.ofBits (parseBitString_ok ht))⟩
    rw [List.getElem?_map, hj]
    rfl
  · exact exec_of_answer_error (f := ⟨.bitChar, j, x⟩) hp
      (congrArg Response.ofBits (parseBitString_bad hx ⟨h0, h1⟩ hlow))

/-- Settles O4: the answer is the rendering, whatever the bits. -/
theorem rendRendersBits : Obligations.RendRendersBits := by
  intro s p a hp
  exact ⟨append_writeBits _ _ _, renderBitString a, length_renderBitString a, fun _ _ => getElem?_renderBitString,
    exec_of_answer_okText hp rfl⟩

end Sys2Proof.Proofs
end

section
/-! The statements of the length validator (spec/41_length_validator.md R125 to R127): each check's two outcomes,
placed on the command's port. -/

namespace Sys2Proof.Proofs
open Sys2Proof Sys2Proof.Machine

/-! ## A check's outcome, placed on its port -/

section
variable {s : State} {p : Port} {i : Instr} {check : Result Unit} (hp : s.ports[s.cur]? = some p)
  (hi : answer s.cfg i = .ofUnit check)
include hp hi

theorem exec_of_check_ok (h : check = .ok ()) : exec i s = .next (answered s p okFrame) := by
  rw [exec_eq hp, hi, h]
  rfl

theorem exec_of_check_raise (kind : Kind) {e0 e1 : Nat} (h : check = raise kind e0 e1) :
    exec i s = .next (answered s p (errFrame kind.code e0 e1)) :=
  exec_of_answer_error (f := ⟨kind, e0, e1⟩) hp (hi.trans (congrArg Response.ofUnit h))

end

/-! ## The three commands -/

/-- Settles O8: `V_EQ` passes exactly on equal lengths. -/
theorem veqlComparesLengths : Obligations.VeqlComparesLengths := by
  intro s p n m hp
  refine ⟨(List.append_assoc _ _ _).symm, fun heq => ?_, fun hne => ?_⟩
  · subst heq
    exact exec_of_check_ok hp rfl (vEq_self n)
  · exact exec_of_check_raise hp rfl .lengthMismatch (vEq_ne hne)

/-- Settles O9: `V_MUL8` passes exactly on the multiples of 8. -/
theorem vmul8TestsMultipleOfEight : Obligations.Vmul8TestsMultipleOfEight := by
  intro s p n hp
  exact ⟨rfl, fun hmul => exec_of_check_ok hp rfl (vMul8_ok hmul),
    fun hrest => exec_of_check_raise hp rfl .malformedLength (vMul8_bad hrest)⟩

/-- Settles O10: `V_KEYLEN` passes exactly from 1 to the configured `MAX_KEY_BITS`. -/
theorem vklenTestsKeyLength : Obligations.VklenTestsKeyLength := by
  intro s p n hp
  exact ⟨rfl, fun hlow hhigh => exec_of_check_ok hp rfl (vKeyLen_ok ⟨hlow, hhigh⟩),
    fun hout => exec_of_check_raise hp rfl .invalidLength (vKeyLen_bad hout)⟩

end Sys2Proof.Proofs
end

section
/-! The statements of the XOR engine (spec/42_xor_engine.md): the laws of `apply`, `encrypt` and `decrypt`, then the
three commands, each on a port that exists. -/

namespace Sys2Proof.Proofs
open Sys2Proof Sys2Proof.Machine

/-! ## The laws of the three functions -/

theorem length_zipWith_xorBit {k x : BitString} (h : k.length = x.length) :
    (List.zipWith xorBit k x).length = x.length := by
  rw [List.length_zipWith, h, min_self]

theorem getElem?_zipWith_xorBit {k x : BitString} {j : Nat} {a b : Bit} (ha : k[j]? = some a) (hb : x[j]? = some b) :
    (List.zipWith xorBit k x)[j]? = some (a != b) := by
  simp [List.getElem?_zipWith, ha, hb]

theorem apply_inv {k x y : BitString} (h : apply k x = .ok y) :
    k.length = x.length ∧ y = List.zipWith xorBit k x := by
  by_cases hlen : k.length = x.length
  · rw [apply_ok hlen] at h
    exact ⟨hlen, (Except.ok.inj h).symm⟩
  · rw [apply_bad hlen] at h
    cases h

theorem length_of_apply {k x y : BitString} (h : apply k x = .ok y) : y.length = k.length ∧ y.length = x.length := by
  obtain ⟨hlen, rfl⟩ := apply_inv h
  have hy := length_zipWith_xorBit hlen
  exact ⟨hy.trans hlen.symm, hy⟩

/-- The result of `apply`, given lane by lane (R141). -/
theorem apply_eq_ok_of_getElem {k x y : BitString} (hk : k.length = x.length) (hy : y.length = x.length)
    (h : ∀ (i : Nat) (_ : i < x.length), (k[i] ^^ x[i]) = y[i]) : apply k x = .ok y := by
  rw [apply_ok hk]
  refine congrArg Except.ok (List.ext_getElem ((length_zipWith_xorBit hk).trans hy.symm) fun i _ hi => ?_)
  rw [List.getElem_zipWith, xorBit_eq, h i (hy ▸ hi)]

/-- The involution (R142), for whatever `apply` has given. -/
theorem apply_apply {k x y : BitString} (h : apply k x = .ok y) : apply k y = .ok x := by
  obtain ⟨hlen, rfl⟩ := apply_inv h
  rw [apply_ok (hlen.trans (length_zipWith_xorBit hlen).symm), zipWith_xorBit_cancel hlen]

theorem apply_comm {k x : BitString} (h : k.length = x.length) : apply k x = apply x k := by
  rw [apply_ok h, apply_ok h.symm, List.zipWith_comm_of_comm fun a b => by simp [Bool.xor_comm]]

theorem apply_assoc {k m x : BitString} (hk : k.length = x.length) (hm : m.length = x.length) :
    (apply m x).bind (apply k) = (apply k m).bind fun y => apply y x := by
  have hkm := hk.trans hm.symm
  calc (apply m x).bind (apply k)
    _ = apply k (List.zipWith xorBit m x) := by rw [apply_ok hm]; rfl
    _ = .ok (List.zipWith xorBit (List.zipWith xorBit k m) x) :=
        apply_eq_ok_of_getElem (by simp [hk, hm]) (by simp [hk, hm]) (by simp)
    _ = apply (List.zipWith xorBit k m) x := (apply_ok ((length_zipWith_xorBit hkm).trans hm)).symm
    _ = (apply k m).bind fun y => apply y x := by rw [apply_ok hkm]; rfl

/-- Settles O50: `apply` succeeds on equal lengths, and is undone by applying the key again. -/
theorem applyIsInvolution : Obligations.ApplyIsInvolution :=
  fun _ _ h => ⟨_, apply_ok h, apply_apply (apply_ok h)⟩

/-- Settles O51: the two outcomes of `apply`, by whether the lengths are equal. -/
theorem applyLengthAndMismatch : Obligations.ApplyLengthAndMismatch := by
  refine fun k x => ⟨fun _ => length_of_apply, fun f => ?_⟩
  by_cases h : k.length = x.length
  · simp [apply_ok h, h]
  · simp [apply_bad h, raise, h, eq_comm]

/-- Settles O52: the equations lane by lane, the equivalences by the involution and commutativity. -/
theorem xorLaws : Obligations.XorLaws := by
  intro k m x hk hm
  refine ⟨apply_comm hk, apply_assoc hk hm, ?_, ?_, ⟨apply_apply, apply_apply⟩, ?_, ?_⟩
  · exact apply_eq_ok_of_getElem (by simp) rfl (by simp)
  · exact apply_eq_ok_of_getElem rfl (by simp) (by simp)
  · rw [apply_comm hk]
    exact ⟨apply_apply, apply_apply⟩
  · exact apply_eq_ok_of_getElem (by simp) (by simp) (by simp)

/-- Settles O53: the key, taken off the ciphertext, leaves the encoding, which is decoded (R148). -/
theorem decryptUndoesEncrypt : Obligations.DecryptUndoesEncrypt := by
  intro k t ht hk
  obtain ⟨y, hencrypt, hlen, hdecrypt⟩ := exists_encrypt_decrypt ht hk
  exact ⟨y, hencrypt, hlen.trans hk, hdecrypt⟩

/-- Settles O54, by the outcome of the first of the two functions: `encodeText` for `ENCR`, `apply` for `DECR`. -/
theorem encrAndDecrAreCompositions : Obligations.EncrAndDecrAreCompositions := by
  refine fun c => ⟨fun a t => ?_, fun a b => ?_⟩
  · simp only [answer, answerEncr, answerEnct, encrypt]
    cases encodeText t <;> rfl
  · simp only [answer, answerDecr, answerXorv, decrypt]
    cases apply a b <;> rfl

/-! ## The three commands -/

/-- A frame that ends in two `BITS` fields, with the lengths and the bits written apart (R61). -/
theorem append_writeBits_writeBits (c : Config) (f a b : BitString) :
    f ++ (writeBits c a ++ writeBits c b) = f ++ bitsOf c.lenW a.length ++ a ++ bitsOf c.lenW b.length ++ b := by
  rw [← List.append_assoc, append_writeBits, append_writeBits]

/-- A frame that ends in a `BITS` and a `TEXT` field, with the counts and the elements written apart (R61). -/
theorem append_writeBits_writeText (c : Config) (f a : BitString) (t : Text) :
    f ++ (writeBits c a ++ writeText c t) =
      f ++ bitsOf c.lenW a.length ++ a ++ bitsOf c.lenW t.length ++ t.flatMap (bitsOf c.cpW) := by
  rw [← List.append_assoc, append_writeText, append_writeBits]

theorem encrypt_bad {k : BitString} {t : Text} {kind : Kind} {e0 e1 : Nat} (h : encodeText t = raise kind e0 e1) :
    encrypt k t = raise kind e0 e1 := by
  rw [encrypt, h]
  rfl

theorem decrypt_bad {k x : BitString} (h : k.length ≠ x.length) :
    decrypt k x = raise .lengthMismatch k.length x.length := by
  rw [decrypt, apply_bad h]
  rfl

/-- Settles O5: the two outcomes of `apply`. -/
theorem xorvXorsEqualLengths : Obligations.XorvXorsEqualLengths := by
  intro s p a b hp
  refine ⟨append_writeBits_writeBits _ _ _ _, fun heq => ?_, fun hne => ?_⟩
  · have happly := apply_ok heq
    exact ⟨_, (length_of_apply happly).1, fun _ _ _ => getElem?_zipWith_xorBit,
      exec_of_answer_okBits hp (congrArg Response.ofBits happly)⟩
  · exact exec_of_answer_error (f := ⟨.lengthMismatch, a.length, b.length⟩) hp
      (congrArg Response.ofBits (apply_bad hne))

/-- Settles O6: `encodeText` decides first; on a text of single bytes the two outcomes of `apply` are left. -/
theorem encrEncryptsText : Obligations.EncrEncryptsText := by
  intro s p a t hp
  have hbits : (t.flatMap (bitsOf 8)).length = 8 * t.length := by rw [length_flatMap_bitsOf, Nat.mul_comm]
  refine ⟨append_writeBits_writeText _ _ _ _, fun ht heq => ?_, fun j x hx hbad hlow => ?_, fun ht hne => ?_⟩
  · have happly := apply_ok (heq.trans hbits.symm)
    exact ⟨_, (length_of_apply happly).1,
      fun j x k y hj hk hy => getElem?_zipWith_xorBit hy (getElem?_flatMap_bitsOf hj hk),
      exec_of_answer_okBits hp (congrArg Response.ofBits ((encrypt_eq ht).trans happly))⟩
  · exact exec_of_answer_error (f := ⟨.encoding, j, x⟩) hp
      (congrArg Response.ofBits (encrypt_bad (encodeText_bad hx hbad hlow)))
  · rw [← hbits] at hne ⊢
    exact exec_of_answer_error (f := ⟨.lengthMismatch, a.length, (t.flatMap (bitsOf 8)).length⟩) hp
      (congrArg Response.ofBits ((encrypt_eq ht).trans (apply_bad hne)))

/-- Settles O7: `apply` decides first; on equal lengths the two outcomes of `decodeText` are left. The bits of Code
`j` are read off the text written out again. -/
theorem decrDecryptsToText : Obligations.DecrDecryptsToText := by
  intro s p a b hp
  refine ⟨append_writeBits_writeBits _ _ _ _, fun heq hmul => ?_, fun hne => ?_, fun heq hrest => ?_⟩
  · have hlen := length_zipWith_xorBit heq
    obtain ⟨u, hu, hcount, hcodes, hbits⟩ := exists_decodeText (hlen.symm ▸ hmul)
    refine ⟨u, by rw [hcount, hlen], fun j x hj => ⟨hcodes x (List.mem_of_getElem? hj), fun k y z hk hy hz => ?_⟩,
      exec_of_answer_okText hp (congrArg Response.ofText ((decrypt_eq heq).trans hu))⟩
    have hxor := getElem?_zipWith_xorBit hy hz
    rw [← hbits, getElem?_flatMap_bitsOf hj hk] at hxor
    exact Option.some.inj hxor
  · exact exec_of_answer_error (f := ⟨.lengthMismatch, a.length, b.length⟩) hp
      (congrArg Response.ofText (decrypt_bad hne))
  · rw [← length_zipWith_xorBit heq] at hrest ⊢
    exact exec_of_answer_error (f := ⟨.malformedLength, (List.zipWith xorBit a b).length, 0⟩) hp
      (congrArg Response.ofText ((decrypt_eq heq).trans (decodeText_bad hrest)))

end Sys2Proof.Proofs
end

section
/-! The statements of the exceptions (spec/60_exceptions.md): which failure a command can raise (R172), the halt on an
illegal frame (R179), and the statuses of the responses that appear (R171, R173). -/

namespace Sys2Proof.Proofs
open Sys2Proof Sys2Proof.Machine

/-! ## The kinds of failure of a function of the block -/

/-- Whatever failure is raised, its kind is one of `kinds`. -/
def RaisesOnly {α : Type} (kinds : List Kind) (x : Result α) : Prop := ∀ f, x = .error f → f.kind ∈ kinds

theorem raisesOnly_ok {α : Type} (kinds : List Kind) (v : α) : RaisesOnly kinds (.ok v) := by
  rintro _ ⟨⟩

theorem raisesOnly_raise {α : Type} (kind : Kind) (e0 e1 : Nat) :
    RaisesOnly [kind] (raise kind e0 e1 : Result α) := by
  rintro _ ⟨⟩
  exact List.mem_singleton_self kind

/-- One function and then another raise what either raises (R15). -/
theorem RaisesOnly.andThen {α β : Type} {kinds more : List Kind} {x : Result α} {k : α → Result β}
    (hx : RaisesOnly kinds x) (hk : ∀ v, RaisesOnly more (k v)) : RaisesOnly (kinds ++ more) (x.andThen k) := by
  cases x with
  | ok v => exact fun f hf => List.mem_append_right kinds (hk v f hf)
  | error f => rintro _ ⟨⟩; exact List.mem_append_left more (hx f rfl)

theorem raisesOnly_vEq (n m : Nat) : RaisesOnly [.lengthMismatch] (vEq n m) := by
  by_cases h : n = m
  · rw [h, vEq_self]
    exact raisesOnly_ok _ ()
  · rw [vEq_ne h]
    exact raisesOnly_raise _ n m

theorem raisesOnly_vMul8 (n : Nat) : RaisesOnly [.malformedLength] (vMul8 n) := by
  by_cases h : n % 8 = 0
  · rw [vMul8_ok h]
    exact raisesOnly_ok _ ()
  · rw [vMul8_bad h]
    exact raisesOnly_raise _ n 0

theorem raisesOnly_vKeyLen (c : Config) (n : Nat) : RaisesOnly [.invalidLength] (vKeyLen c n) := by
  by_cases h : 1 ≤ n ∧ n ≤ c.maxKeyBits
  · rw [vKeyLen_ok h]
    exact raisesOnly_ok _ ()
  · rw [vKeyLen_bad (by omega)]
    exact raisesOnly_raise _ n _

theorem raisesOnly_encodeText (t : Text) : RaisesOnly [.encoding] (encodeText t) := by
  unfold encodeText
  cases firstBad notSingleByte t with
  | none => exact raisesOnly_ok _ _
  | some found => exact raisesOnly_raise _ _ _

theorem raisesOnly_parseBitString (t : Text) : RaisesOnly [.bitChar] (parseBitString t) := by
  unfold parseBitString
  cases firstBad notBitChar t with
  | none => exact raisesOnly_ok _ _
  | some found => exact raisesOnly_raise _ _ _

theorem raisesOnly_decodeText (b : BitString) : RaisesOnly [.malformedLength] (decodeText b) :=
  (raisesOnly_vMul8 b.length).andThen fun _ => raisesOnly_ok [] _

theorem raisesOnly_apply (k x : BitString) : RaisesOnly [.lengthMismatch] (apply k x) :=
  (raisesOnly_vEq k.length x.length).andThen fun _ => raisesOnly_ok [] _

/-! ## The table of R172 -/

/-- The kinds of failure in a command's row of the table of R172, in the order in which its checks are made. -/
def failureKinds : Op → List Kind
  | .enct => [.encoding]
  | .dect => [.malformedLength]
  | .pars => [.bitChar]
  | .rend => []
  | .xorv => [.lengthMismatch]
  | .encr => [.encoding, .lengthMismatch]
  | .decr => [.lengthMismatch, .malformedLength]
  | .veql => [.lengthMismatch]
  | .vmul8 => [.malformedLength]
  | .vklen => [.invalidLength]

/-- A command's failure is one of a function its rule calls. -/
theorem kind_mem_failureKinds {c : Config} {i : Instr} {f : Failure} (h : answer c i = .error f) :
    f.kind ∈ failureKinds i.op := by
  cases i with
  | enct t => exact raisesOnly_encodeText t f (ofBits_eq_error.mp h)
  | dect a => exact raisesOnly_decodeText a f (ofText_eq_error.mp h)
  | pars t => exact raisesOnly_parseBitString t f (ofBits_eq_error.mp h)
  | rend a => cases h
  | xorv a b => exact raisesOnly_apply a b f (ofBits_eq_error.mp h)
  | encr a t => exact (raisesOnly_encodeText t).andThen (raisesOnly_apply a) f (ofBits_eq_error.mp h)
  | decr a b => exact (raisesOnly_apply a b).andThen raisesOnly_decodeText f (ofText_eq_error.mp h)
  | veql n m => exact raisesOnly_vEq n m f (ofUnit_eq_error.mp h)
  | vmul8 n => exact raisesOnly_vMul8 n f (ofUnit_eq_error.mp h)
  | vklen n => exact raisesOnly_vKeyLen c n f (ofUnit_eq_error.mp h)

/-- For each cell of the table a command that reaches it, with the failure it is answered: a Code above 255, one that
is no bit character, lengths that differ, a length that is no multiple of 8, and the key length 0. -/
def failingCommands : List (Instr × Failure) :=
  [(.enct [256], ⟨.encoding, 0, 256⟩),
   (.dect [true], ⟨.malformedLength, 1, 0⟩),
   (.pars [0x32], ⟨.bitChar, 0, 0x32⟩),
   (.xorv [] [true], ⟨.lengthMismatch, 0, 1⟩),
   (.encr [] [256], ⟨.encoding, 0, 256⟩),
   (.encr [] [0x69], ⟨.lengthMismatch, 0, 8⟩),
   (.decr [] [true], ⟨.lengthMismatch, 0, 1⟩),
   (.decr [true] [true], ⟨.malformedLength, 1, 0⟩),
   (.veql 0 1, ⟨.lengthMismatch, 0, 1⟩),
   (.vmul8 12, ⟨.malformedLength, 12, 0⟩),
   (.vklen 0, ⟨.invalidLength, 0, 128⟩)]

theorem answer_of_mem_failingCommands : ∀ w ∈ failingCommands,
    w.1.wellFormed Config.default = true ∧ answer Config.default w.1 = .error w.2 := by
  decide

/-- The cells of the table, each as that of its command in `failingCommands`. -/
def failureCells : List (Op × Kind) := failingCommands.map fun w => (w.1.op, w.2.kind)

theorem mem_failureCells (op : Op) : ∀ kind ∈ failureKinds op, (op, kind) ∈ failureCells := by
  cases op <;> decide

/-- Settles O13: a failure's kind is in the row of its command, and each cell has its command in `failingCommands`. -/
theorem failureKindsByCommand : Obligations.FailureKindsByCommand := by
  refine ⟨fun c i f h => mem_failureCells i.op f.kind (kind_mem_failureKinds h), fun x hx => ?_⟩
  obtain ⟨w, hw, rfl⟩ := List.mem_map.mp (show x ∈ failureCells from hx)
  obtain ⟨hwf, hanswer⟩ := answer_of_mem_failingCommands w hw
  exact ⟨w.1, w.2, rfl, rfl, hwf, hanswer⟩

/-! ## The halt -/

/-- Settles O19: the push, the pull and the reset by what each does, and the rest by O23, which has reset as the only
way out of the halt. -/
theorem illegalFrameHaltsUntilReset : Obligations.IllegalFrameHaltsUntilReset := by
  intro s k p ms hp
  refine ⟨fun b reason value hm hready ht hs => ?_, fun b t hm hhalted => ?_, fun b tx hm _ ht => ?_, fun hm => ?_,
    fun m t q hm hne hhalted h hq => ?_⟩
  · exact (step_move hm).trans (hostPush_illegal hp hready ht hs)
  · have hstep : step s = .refused .pushNotEnabled := (step_move hm).trans (hostPush_refused hp (.inl hhalted))
    rw [hstep]
    exact nofun
  · exact pullTakesFirstBit s k b tx ms p hm hp ht
  · refine ⟨_, step_move hm, ?_⟩
    rw [resetBlock_ports, List.getElem?_map, hp]
    rfl
  · by_contra hq'
    rcases modeChangesOnlyByIllegalFrameOrReset s t k p q h hp hq (fun e => hq' (e ▸ hhalted)) with
      ⟨hready, -⟩ | ⟨-, -, ms', hm'⟩
    · exact nomatch hhalted.symm.trans hready
    · exact hne (List.cons.inj (hm.symm.trans hm')).1

/-! ## The statuses of responses -/

/-- A response frame begins with its status (R66). -/
theorem encodeResponse_eq_append (c : Config) (r : Response) :
    ∃ body, encodeResponse c r = bitsOf 8 r.status ++ body := by
  cases r with
  | okBits b => exact ⟨_, rfl⟩
  | okText u => exact ⟨_, rfl⟩
  | okNone => exact ⟨[], (List.append_nil _).symm⟩
  | error f => exact ⟨_, List.append_assoc _ _ _⟩

theorem status_mem_listed (r : Response) : r.status ∈ [0x00, 0x01, 0x02, 0x03, 0x04, 0x05, 0x7F] := by
  cases r with
  | error f => rw [Response.status]; cases f.kind <;> decide
  | okBits _ | okText _ | okNone => exact List.mem_cons_self

theorem status_lt (r : Response) : r.status < 2 ^ 8 := by
  cases r with
  | error f => exact kind_code_lt f.kind
  | okBits _ | okText _ | okNone => exact (by decide : statusOk < 2 ^ 8)

/-- The host reads the status off the first eight bits. -/
theorem uint_take_encodeResponse (c : Config) (r : Response) : uint ((encodeResponse c r).take 8) = r.status := by
  obtain ⟨body, h⟩ := encodeResponse_eq_append c r
  rw [h, List.take_left' (length_bitsOf 8 _), uint_bitsOf (status_lt r)]

/-- A response that is no success is an `ERR` frame: a status and two numbers (R66). -/
theorem length_encodeResponse_of_status_ne {c : Config} {r : Response} (h : r.status ≠ 0x00) :
    (encodeResponse c r).length = 72 := by
  cases r with
  | error f => simp
  | okBits _ | okText _ | okNone => exact absurd rfl h

theorem exists_encodeResponse_of_transact {c : Config} {frame response : BitString} {mode : Mode}
    (h : transact c frame = some (mode, response)) : ∃ r, response = encodeResponse c r := by
  rcases transact_eq_some h with ⟨_, -, -, hr⟩ | ⟨_, _, -, -, hr⟩
  · exact ⟨_, hr⟩
  · exact ⟨_, hr⟩

/-- Settles O27, by cases on what the step did to the port: only a push that decides its frame fills an empty `tx`, and
what it places there is a response frame. -/
theorem placedResponsesHaveListedStatus : Obligations.PlacedResponsesHaveListedStatus := by
  intro s t k p q h hp hq hempty hfull
  rcases step_port_cases h hp hq with rfl | ⟨_, _, -, -, -, ⟨-, rfl⟩ | ⟨mode, response, hx, rfl⟩⟩ |
    ⟨_, _, _, -, ht, -⟩ | ⟨-, rfl⟩
  · exact absurd hempty hfull
  · exact absurd rfl hfull
  · obtain ⟨r, rfl⟩ := exists_encodeResponse_of_transact hx
    simp only [uint_take_encodeResponse]
    exact ⟨le_length_encodeResponse s.cfg r, status_mem_listed r, length_encodeResponse_of_status_ne⟩
  · exact nomatch hempty.symm.trans ht
  · exact absurd rfl hfull

end Sys2Proof.Proofs
end

section
/-! The statements of reset and hazards (spec/70_reset_and_hazards.md): reset as a step and the transaction after it
(R200 to R202), the waiting block (R205), the bound on a response (R212), and how a run on a port ends (R214). -/

namespace Sys2Proof.Proofs
open Sys2Proof Sys2Proof.Machine

/-! ## Reset -/

/-- The reset move makes every port idle and is consumed (R200). -/
theorem step_reset {s : State} {ms : List HostMove} (hm : s.moves = .reset :: ms) :
    step s = .next { s with moves := ms, ports := List.replicate s.ports.length Port.idle } := by
  rw [← List.map_const']
  exact step_move hm

/-- Settles O31: reset leaves the port idle, whatever it was, and from there the transaction is that of O28. -/
theorem resetThenTransactionFromAnyState : Obligations.ResetThenTransactionFromAnyState := by
  intro s k i ms hc hwf hk hm
  obtain ⟨-, hrun⟩ := transactionAnswersAndLeavesNoTrace
    { s with moves := transactionMoves s.cfg k i ++ ms, ports := List.replicate s.ports.length Port.idle }
    k i ms hc hwf (List.getElem?_replicate_of_lt hk) rfl
  rw [Nat.add_comm, steps_one_next (step_reset hm)]
  exact ⟨_, hrun, rfl, rfl, rfl⟩

/-- Settles O20: reset is the step `step_reset`; a port that leaves the halt changes its mode, which by O23 only an
illegal frame on a `READY` port or reset can bring about. -/
theorem resetReadiesEveryPort : Obligations.ResetReadiesEveryPort := by
  refine ⟨fun s ms hm => step_reset hm, fun s t k p q h hp hq hhalted hready => ?_⟩
  have hne : p.mode ≠ q.mode := by simp [hhalted, hready]
  rcases modeChangesOnlyByIllegalFrameOrReset s t k p q h hp hq hne with ⟨hr, -⟩ | ⟨-, -, hreset⟩
  · exact nomatch hhalted.symm.trans hr
  · exact hreset

/-! ## Waiting and answering -/

/-- Settles O22: with no move planned a step is idle. -/
theorem blockWaitsForHost : Obligations.BlockWaitsForHost := fun _ => step_idle

/-- Settles O26: a decided frame has a response by `transact`, which the push that decides it places, and no response
frame is empty. -/
theorem requestAnsweredInSameStep : Obligations.RequestAnsweredInSameStep := by
  intro s k b ms p hm hp hready ht hdecided
  cases hx : transact s.cfg (p.rx ++ [b]) with
  | none => exact absurd (transact_eq_none_iff.mp hx) hdecided
  | some outcome =>
    obtain ⟨mode, response⟩ := outcome
    obtain ⟨r, rfl⟩ := exists_encodeResponse_of_transact hx
    exact ⟨_, _, (step_move hm).trans (hostPush_transact hp hready ht hx), ports_set_self hp, rfl,
      encodeResponse_ne_nil s.cfg r⟩

/-! ## The end of a run -/

theorem hostDone_iff {s : State} {k : Nat} : s.hostDone k = true ↔ ∀ m ∈ s.moves, m.isOn k = false := by
  simp [State.hostDone]

theorem quiescent_iff {p : Port} : p.quiescent = true ↔ p.rx = [] ∧ p.tx = [] := by
  simp [Port.quiescent]

/-- A run has ended well on a port that is idle and to which the host has no more to say. -/
theorem endedWell_iff {s : State} {k : Nat} :
    s.endedWell k = true ↔ s.ports[k]? = some Port.idle ∧ ∀ m ∈ s.moves, m.isOn k = false := by
  unfold State.endedWell
  rw [port?_eq]
  cases s.ports[k]? with
  | none => simp
  | some p =>
    obtain ⟨mode, rx, tx⟩ := p
    simp only [Bool.and_eq_true, hostDone_iff, quiescent_iff, beq_iff_eq, Option.some.injEq, Port.idle, Port.mk.injEq]
    tauto

/-- A run has ended badly on a port that is halted, or that the host left while `rx` or `tx` holds bits. -/
theorem endedBadly_iff {s : State} {k : Nat} {p : Port} (hp : s.ports[k]? = some p) :
    s.endedBadly k = true ↔
      p.mode = .halted ∨ ((∀ m ∈ s.moves, m.isOn k = false) ∧ (p.rx ≠ [] ∨ p.tx ≠ [])) := by
  have hbusy : (!p.quiescent) = true ↔ p.rx ≠ [] ∨ p.tx ≠ [] := by
    rw [Bool.not_eq_true', Bool.eq_false_iff, ne_eq, quiescent_iff, not_and_or]
  simp only [State.endedBadly, port?_eq, hp, Bool.or_eq_true, Bool.and_eq_true, beq_iff_eq, hostDone_iff, hbusy]

/-- Settles O35: by O29 the transactions leave the port as idle as they found it and the host with no moves; the bad
ends are those of `endedBadly_iff`; and an idle port is none of them. -/
theorem wholeTransactionsEndWell : Obligations.WholeTransactionsEndWell := by
  refine ⟨fun s k is hc hwf hp hm => ?_, fun s k p hp => (endedBadly_iff hp).mpr, fun s k ⟨hwell, hbadly⟩ => ?_⟩
  · obtain ⟨t, hrun, -, hports, hmoves, -⟩ :=
      responsesLeaveInRequestOrder s k is [] hc hwf hp (hm.trans (List.append_nil _).symm)
    refine ⟨t, hm ▸ hrun, endedWell_iff.mpr ⟨hports ▸ hp, ?_⟩⟩
    rw [hmoves]
    exact List.forall_mem_nil _
  · obtain ⟨hidle, -⟩ := endedWell_iff.mp hwell
    rcases (endedBadly_iff hidle).mp hbadly with hhalted | ⟨-, hrx | htx⟩
    · exact nomatch hhalted
    · exact hrx rfl
    · exact htx rfl

end Sys2Proof.Proofs
end

section
/-! What is not enabled is no step (spec/10_state.md R32; spec/93_implementation_defined.md U13): the model's refusals
and its fault on a port number that does not exist (log entries 3 and 9). -/

namespace Sys2Proof.Proofs
open Sys2Proof Sys2Proof.Machine

/-- Settles O18: each step is the host's move on the same ports, and the laws of push and pull give its refusal or
fault. -/
theorem disabledMovesAreNoSteps : Obligations.DisabledMovesAreNoSteps := by
  intro s k ms
  refine ⟨fun b p hm hp hdisabled => ?pushDisabled, fun p hm hp hempty => ?pullEmpty,
    fun b hm hp => ?pushNoPort, fun hm hp => ?pullNoPort⟩ <;> rw [step_move hm]
  case pushDisabled => exact hostPush_refused hp hdisabled
  case pullEmpty => exact hostPull_refused hp hempty
  case pushNoPort => exact hostPush_fault hp
  case pullNoPort => exact hostPull_fault hp

end Sys2Proof.Proofs
end
